-- ==== Sys2Proof/Word.lean ====
section
/-! DEFINITION. The word types of the CHIP-8 engine (spec/00_scope.md R9, R12, R13). -/

namespace Sys2Proof

/-- A byte: a general register, a memory cell, a timer, an 8-bit immediate `nn`. -/
abbrev Byte := BitVec 8

/-- A 16-bit word: an instruction word, PC, I, IR, a return address. -/
abbrev Word := BitVec 16

/-- A 4-bit nibble: a register number `x` or `y`, a sprite height `n`, a key number. -/
abbrev Nib := BitVec 4

/-- A 12-bit address immediate `nnn`. -/
abbrev Imm12 := BitVec 12

end Sys2Proof
end

