-- ==== Sys2Proof/Syntax.lean ====
section
/-! DEFINITION. The 33 instructions of spec/30_encoding.md R100, one constructor per row of
spec/opcode_table.json, in the table's order. -/

namespace Sys2Proof

/-- One constructor per row of R100. Operands are the fields of R91 that the row's pattern names: `x`, `y`
register numbers (every value legal, R94), `n` a row count, `nn` an 8-bit and `nnn` a 12-bit immediate (R93).
`shr` and `shl` keep the field `y`, which is decoded and ignored (R104). -/
inductive Instr where
  | cls
  | ret
  | jp (nnn : Imm12)
  | call (nnn : Imm12)
  | seImm (x : Nib) (nn : Byte)
  | sneImm (x : Nib) (nn : Byte)
  | seReg (x y : Nib)
  | ldImm (x : Nib) (nn : Byte)
  | addImm (x : Nib) (nn : Byte)
  | ldReg (x y : Nib)
  | orReg (x y : Nib)
  | andReg (x y : Nib)
  | xorReg (x y : Nib)
  | addReg (x y : Nib)
  | sub (x y : Nib)
  | shr (x y : Nib)
  | shl (x y : Nib)
  | sneReg (x y : Nib)
  | ldI (nnn : Imm12)
  | jpV0 (nnn : Imm12)
  | rnd (x : Nib) (nn : Byte)
  | drw (x y : Nib) (n : Nib)
  | skp (x : Nib)
  | sknp (x : Nib)
  | ldVxDt (x : Nib)
  | ldVxK (x : Nib)
  | ldDt (x : Nib)
  | ldSt (x : Nib)
  | addI (x : Nib)
  | ldF (x : Nib)
  | ldB (x : Nib)
  | ldStore (x : Nib)
  | ldLoad (x : Nib)
deriving DecidableEq, Repr

/-- The six formats of R92. -/
inductive Format where
  | o
  | a
  | xk
  | xy
  | xyn
  | xs
deriving DecidableEq, Repr

/-- The fields a format uses, in the order of the syntax column of R100: (lowest bit, width) (R91, R92). -/
def Format.fields : Format → List (Nat × Nat)
  | .o => []
  | .a => [(0, 12)]
  | .xk => [(8, 4), (0, 8)]
  | .xy => [(8, 4), (4, 4)]
  | .xyn => [(8, 4), (4, 4), (0, 4)]
  | .xs => [(8, 4)]

/-- One row of the table of R100: a word `w` is an instruction of the row when `w AND mask = value`. -/
structure Row where
  mnemonic : String
  format : Format
  mask : Word
  value : Word
deriving DecidableEq, Repr

/-- Rows 1 to 9 of R100. -/
def opcodeRowsA : List Row :=
  [⟨"CLS", .o, 0xFFFF#16, 0x00E0#16⟩,
   ⟨"RET", .o, 0xFFFF#16, 0x00EE#16⟩,
   ⟨"JP", .a, 0xF000#16, 0x1000#16⟩,
   ⟨"CALL", .a, 0xF000#16, 0x2000#16⟩,
   ⟨"SE.imm", .xk, 0xF000#16, 0x3000#16⟩,
   ⟨"SNE.imm", .xk, 0xF000#16, 0x4000#16⟩,
   ⟨"SE.reg", .xy, 0xF00F#16, 0x5000#16⟩,
   ⟨"LD.imm", .xk, 0xF000#16, 0x6000#16⟩,
   ⟨"ADD.imm", .xk, 0xF000#16, 0x7000#16⟩]

/-- Rows 10 to 18 of R100. -/
def opcodeRowsB : List Row :=
  [⟨"LD.reg", .xy, 0xF00F#16, 0x8000#16⟩,
   ⟨"OR", .xy, 0xF00F#16, 0x8001#16⟩,
   ⟨"AND", .xy, 0xF00F#16, 0x8002#16⟩,
   ⟨"XOR", .xy, 0xF00F#16, 0x8003#16⟩,
   ⟨"ADD.reg", .xy, 0xF00F#16, 0x8004#16⟩,
   ⟨"SUB", .xy, 0xF00F#16, 0x8005#16⟩,
   ⟨"SHR", .xy, 0xF00F#16, 0x8006#16⟩,
   ⟨"SHL", .xy, 0xF00F#16, 0x800E#16⟩,
   ⟨"SNE.reg", .xy, 0xF00F#16, 0x9000#16⟩]

/-- Rows 19 to 33 of R100. -/
def opcodeRowsC : List Row :=
  [⟨"LD.I", .a, 0xF000#16, 0xA000#16⟩,
   ⟨"JP.V0", .a, 0xF000#16, 0xB000#16⟩,
   ⟨"RND", .xk, 0xF000#16, 0xC000#16⟩,
   ⟨"DRW", .xyn, 0xF000#16, 0xD000#16⟩,
   ⟨"SKP", .xs, 0xF0FF#16, 0xE09E#16⟩,
   ⟨"SKNP", .xs, 0xF0FF#16, 0xE0A1#16⟩,
   ⟨"LD.Vx.DT", .xs, 0xF0FF#16, 0xF007#16⟩,
   ⟨"LD.Vx.K", .xs, 0xF0FF#16, 0xF00A#16⟩,
   ⟨"LD.DT", .xs, 0xF0FF#16, 0xF015#16⟩,
   ⟨"LD.ST", .xs, 0xF0FF#16, 0xF018#16⟩,
   ⟨"ADD.I", .xs, 0xF0FF#16, 0xF01E#16⟩,
   ⟨"LD.F", .xs, 0xF0FF#16, 0xF029#16⟩,
   ⟨"LD.B", .xs, 0xF0FF#16, 0xF033#16⟩,
   ⟨"LD.store", .xs, 0xF0FF#16, 0xF055#16⟩,
   ⟨"LD.load", .xs, 0xF0FF#16, 0xF065#16⟩]

/-- The complete instruction list of R100. -/
def opcodeTable : List Row :=
  opcodeRowsA ++ opcodeRowsB ++ opcodeRowsC

/-- Does the word belong to the row (R100)? -/
def Row.matchesWord (r : Row) (w : Word) : Bool :=
  w &&& r.mask == r.value

/-- An instruction as it is written in assembly (R106): the number of its row in R100 (1 to 33) and its numeric
operands in the order of the syntax column. Operands are numbers here, so that a line can be ill-formed. -/
structure Source where
  row : Nat
  operands : List Nat
deriving DecidableEq, Repr

/-- The row of R100 an instruction belongs to, by the number in the table's first column. -/
def Instr.rowNumber : Instr → Nat
  | .cls => 1
  | .ret => 2
  | .jp _ => 3
  | .call _ => 4
  | .seImm _ _ => 5
  | .sneImm _ _ => 6
  | .seReg _ _ => 7
  | .ldImm _ _ => 8
  | .addImm _ _ => 9
  | .ldReg _ _ => 10
  | .orReg _ _ => 11
  | .andReg _ _ => 12
  | .xorReg _ _ => 13
  | .addReg _ _ => 14
  | .sub _ _ => 15
  | .shr _ _ => 16
  | .shl _ _ => 17
  | .sneReg _ _ => 18
  | .ldI _ => 19
  | .jpV0 _ => 20
  | .rnd _ _ => 21
  | .drw _ _ _ => 22
  | .skp _ => 23
  | .sknp _ => 24
  | .ldVxDt _ => 25
  | .ldVxK _ => 26
  | .ldDt _ => 27
  | .ldSt _ => 28
  | .addI _ => 29
  | .ldF _ => 30
  | .ldB _ => 31
  | .ldStore _ => 32
  | .ldLoad _ => 33

/-- The operands of an instruction in the order of the syntax column of R100. -/
def Instr.operands : Instr → List Nat
  | .cls | .ret => []
  | .jp nnn | .call nnn | .ldI nnn | .jpV0 nnn => [nnn.toNat]
  | .seImm x nn | .sneImm x nn | .ldImm x nn | .addImm x nn | .rnd x nn => [x.toNat, nn.toNat]
  | .seReg x y | .ldReg x y | .orReg x y | .andReg x y | .xorReg x y | .addReg x y | .sub x y | .shr x y | .shl x y
  | .sneReg x y => [x.toNat, y.toNat]
  | .drw x y n => [x.toNat, y.toNat, n.toNat]
  | .skp x | .sknp x | .ldVxDt x | .ldVxK x | .ldDt x | .ldSt x | .addI x | .ldF x | .ldB x | .ldStore x
  | .ldLoad x => [x.toNat]

/-- The instruction as an assembly line. -/
def Instr.source (i : Instr) : Source :=
  { row := i.rowNumber, operands := i.operands }

end Sys2Proof
end

