-- ==== Sys2Proof/WellFormed.lean ====
section
/-! DEFINITION. When an assembly line, an instruction or an instruction word is well formed
(spec/30_encoding.md R92 to R94, R100 to R102, R106). -/

namespace Sys2Proof

/-- The row of R100 with the given number, counted from 1. -/
def rowOf (number : Nat) : Option Row :=
  if number = 0 then none else opcodeTable[number - 1]?

/-- Every operand fits its field (R91): as many operands as the format has fields, each below 2^width. -/
def operandsFit : List (Nat × Nat) → List Nat → Bool
  | [], [] => true
  | (_, width) :: fs, op :: ops => decide (op < 2 ^ width) && operandsFit fs ops
  | _, _ => false

/-- An assembly line is well formed: its row exists and its operands fit the row's fields. -/
def Source.wellFormed (src : Source) : Bool :=
  match rowOf src.row with
  | some r => operandsFit r.format.fields src.operands
  | none => false

/-- An instruction is well formed when its assembly line is. The operand types of `Instr` are the field widths
of R91, so every instruction is (`Sys2Proof.Laws.Instr_wellFormed_all`). -/
def Instr.wellFormed (i : Instr) : Bool :=
  i.source.wellFormed

/-- The operands placed in their fields (R91). -/
def placeOperands : List (Nat × Nat) → List Nat → Word
  | (lo, _) :: fs, op :: ops => (BitVec.ofNat 16 op <<< lo) ||| placeOperands fs ops
  | _, _ => 0#16

/-- The word of a well-formed assembly line (R106: every syntax form is exactly one word, R107). -/
def Source.word (src : Source) : Option Word :=
  match rowOf src.row with
  | some r =>
    if operandsFit r.format.fields src.operands then some (r.value ||| placeOperands r.format.fields src.operands)
    else none
  | none => none

/-- The rows of R100 a word belongs to. R101: there is never more than one. -/
def rowsMatching (w : Word) : List Row :=
  opcodeTable.filter (·.matchesWord w)

/-- A word is an instruction word when a row of R100 matches it; every other word is unknown (R102). -/
def Word.isInstruction (w : Word) : Bool :=
  opcodeTable.any (·.matchesWord w)

end Sys2Proof
end

