-- ==== Sys2Proof/Decode.lean ====
section
/-! DEFINITION. The decoder and the encoder (spec/30_encoding.md R90 to R107, spec/40_execution_cycle.md R123). -/

namespace Sys2Proof

/-- Why a word or a list of bytes holds no instruction: the family of R102 whose fixed bits it misses, or too few
bytes for one word. -/
inductive Reject where
  /-- 0x0000 to 0x0FFF but 0x00E0 and 0x00EE (R96). -/
  | system
  /-- 0x5XYn with n ≠ 0. -/
  | seReg
  /-- 0x8XYn with n not one of 0 to 6 and E (R97). -/
  | alu
  /-- 0x9XYn with n ≠ 0. -/
  | sneReg
  /-- 0xEXkk with kk neither 9E nor A1 (R98). -/
  | keySkip
  /-- 0xFXkk with kk none of the nine of R99. -/
  | misc
  /-- Fewer than two bytes (R90: every instruction is one 16-bit word). -/
  | truncated
deriving DecidableEq, Repr

/-- The top nibble W[15:12] (R91). -/
def fieldOp (w : Word) : Nib := w.extractLsb' 12 4

/-- The field X, W[11:8] (R91). -/
def fieldX (w : Word) : Nib := w.extractLsb' 8 4

/-- The field Y, W[7:4] (R91). -/
def fieldY (w : Word) : Nib := w.extractLsb' 4 4

/-- The field N, W[3:0] (R91). -/
def fieldN (w : Word) : Nib := w.extractLsb' 0 4

/-- The field NN, W[7:0] (R91). -/
def fieldNN (w : Word) : Byte := w.extractLsb' 0 8

/-- The field NNN, W[11:0] (R91). -/
def fieldNNN (w : Word) : Imm12 := w.extractLsb' 0 12

/-- Family 0 (R96). -/
def decodeSystem (w : Word) : Except Reject Instr :=
  match (fieldNNN w).toNat with
  | 0x0E0 => .ok .cls
  | 0x0EE => .ok .ret
  | _ => .error .system

/-- Family 8, by W[3:0] (R97). -/
def decodeAlu (w : Word) : Except Reject Instr :=
  match (fieldN w).toNat with
  | 0x0 => .ok (.ldReg (fieldX w) (fieldY w))
  | 0x1 => .ok (.orReg (fieldX w) (fieldY w))
  | 0x2 => .ok (.andReg (fieldX w) (fieldY w))
  | 0x3 => .ok (.xorReg (fieldX w) (fieldY w))
  | 0x4 => .ok (.addReg (fieldX w) (fieldY w))
  | 0x5 => .ok (.sub (fieldX w) (fieldY w))
  | 0x6 => .ok (.shr (fieldX w) (fieldY w))
  | 0xE => .ok (.shl (fieldX w) (fieldY w))
  | _ => .error .alu

/-- Family E, by W[7:0] (R98). -/
def decodeKeySkip (w : Word) : Except Reject Instr :=
  match (fieldNN w).toNat with
  | 0x9E => .ok (.skp (fieldX w))
  | 0xA1 => .ok (.sknp (fieldX w))
  | _ => .error .keySkip

/-- Family F, by W[7:0] (R99). -/
def decodeMisc (w : Word) : Except Reject Instr :=
  match (fieldNN w).toNat with
  | 0x07 => .ok (.ldVxDt (fieldX w))
  | 0x0A => .ok (.ldVxK (fieldX w))
  | 0x15 => .ok (.ldDt (fieldX w))
  | 0x18 => .ok (.ldSt (fieldX w))
  | 0x1E => .ok (.addI (fieldX w))
  | 0x29 => .ok (.ldF (fieldX w))
  | 0x33 => .ok (.ldB (fieldX w))
  | 0x55 => .ok (.ldStore (fieldX w))
  | 0x65 => .ok (.ldLoad (fieldX w))
  | _ => .error .misc

/-- Decode of a word (R95, R101, R123): the top nibble selects a family, and families 0, 5, 8, 9, E and F look at
the low bits too. A word no row matches is rejected by the name of its family. -/
def decodeWord (w : Word) : Except Reject Instr :=
  match (fieldOp w).toNat with
  | 0x0 => decodeSystem w
  | 0x1 => .ok (.jp (fieldNNN w))
  | 0x2 => .ok (.call (fieldNNN w))
  | 0x3 => .ok (.seImm (fieldX w) (fieldNN w))
  | 0x4 => .ok (.sneImm (fieldX w) (fieldNN w))
  | 0x5 => if fieldN w = 0x0#4 then .ok (.seReg (fieldX w) (fieldY w)) else .error .seReg
  | 0x6 => .ok (.ldImm (fieldX w) (fieldNN w))
  | 0x7 => .ok (.addImm (fieldX w) (fieldNN w))
  | 0x8 => decodeAlu w
  | 0x9 => if fieldN w = 0x0#4 then .ok (.sneReg (fieldX w) (fieldY w)) else .error .sneReg
  | 0xA => .ok (.ldI (fieldNNN w))
  | 0xB => .ok (.jpV0 (fieldNNN w))
  | 0xC => .ok (.rnd (fieldX w) (fieldNN w))
  | 0xD => .ok (.drw (fieldX w) (fieldY w) (fieldN w))
  | 0xE => decodeKeySkip w
  | _ => decodeMisc w

/-- Decode as R123 and R101 have it: the one matching row's instruction, or none. -/
def decode (w : Word) : Option Instr :=
  match decodeWord w with
  | .ok i => some i
  | .error _ => none

/-- The word two bytes make, the first in bits 15:8 (R62, R90). -/
def wordOfBytes (hi lo : Byte) : Word :=
  hi ++ lo

/-- The two bytes of a word in address order, big-endian (R62). -/
def bytesOfWord (w : Word) : List Byte :=
  [w.extractLsb' 8 8, w.extractLsb' 0 8]

/-- Decode of any list of bytes: the instruction its first two bytes hold and the rest of the list. -/
def decodeBytes : List Byte → Except Reject (Instr × List Byte)
  | hi :: lo :: rest =>
    match decodeWord (wordOfBytes hi lo) with
    | .ok i => .ok (i, rest)
    | .error e => .error e
  | _ => .error .truncated

/-- The word of an instruction, from the bit layouts of R92 and the match column of R100. -/
def encode : Instr → Word
  | .cls => 0x00E0#16
  | .ret => 0x00EE#16
  | .jp nnn => 0x1#4 ++ nnn
  | .call nnn => 0x2#4 ++ nnn
  | .seImm x nn => 0x3#4 ++ x ++ nn
  | .sneImm x nn => 0x4#4 ++ x ++ nn
  | .seReg x y => 0x5#4 ++ x ++ y ++ 0x0#4
  | .ldImm x nn => 0x6#4 ++ x ++ nn
  | .addImm x nn => 0x7#4 ++ x ++ nn
  | .ldReg x y => 0x8#4 ++ x ++ y ++ 0x0#4
  | .orReg x y => 0x8#4 ++ x ++ y ++ 0x1#4
  | .andReg x y => 0x8#4 ++ x ++ y ++ 0x2#4
  | .xorReg x y => 0x8#4 ++ x ++ y ++ 0x3#4
  | .addReg x y => 0x8#4 ++ x ++ y ++ 0x4#4
  | .sub x y => 0x8#4 ++ x ++ y ++ 0x5#4
  | .shr x y => 0x8#4 ++ x ++ y ++ 0x6#4
  | .shl x y => 0x8#4 ++ x ++ y ++ 0xE#4
  | .sneReg x y => 0x9#4 ++ x ++ y ++ 0x0#4
  | .ldI nnn => 0xA#4 ++ nnn
  | .jpV0 nnn => 0xB#4 ++ nnn
  | .rnd x nn => 0xC#4 ++ x ++ nn
  | .drw x y n => 0xD#4 ++ x ++ y ++ n
  | .skp x => 0xE#4 ++ x ++ 0x9E#8
  | .sknp x => 0xE#4 ++ x ++ 0xA1#8
  | .ldVxDt x => 0xF#4 ++ x ++ 0x07#8
  | .ldVxK x => 0xF#4 ++ x ++ 0x0A#8
  | .ldDt x => 0xF#4 ++ x ++ 0x15#8
  | .ldSt x => 0xF#4 ++ x ++ 0x18#8
  | .addI x => 0xF#4 ++ x ++ 0x1E#8
  | .ldF x => 0xF#4 ++ x ++ 0x29#8
  | .ldB x => 0xF#4 ++ x ++ 0x33#8
  | .ldStore x => 0xF#4 ++ x ++ 0x55#8
  | .ldLoad x => 0xF#4 ++ x ++ 0x65#8

/-- The bytes of an instruction in address order (R62). -/
def encodeBytes (i : Instr) : List Byte :=
  bytesOfWord (encode i)

/-- The bytes of a table row's instruction as memory holds them: `w` read with bit 0 the least significant bit of
the one word, bits above `nbits` zero, the high byte at the lower address (R62, R90). -/
def tableWordBytes (nbits w : Nat) : List Byte :=
  bytesOfWord (BitVec.ofNat 16 (w % 2 ^ nbits))

/-- The instruction the decoder reads from a table row's word (the host's numbering of bits). -/
def decodeTableWord (nbits w : Nat) : Option Instr :=
  match decodeBytes (tableWordBytes nbits w) with
  | .ok (i, _) => some i
  | .error _ => none

end Sys2Proof
end

