-- ==== Sys2Proof/Config.lean ====
section
/-! DEFINITION. The parameters the spec leaves to the model (spec/00_scope.md R10) and the free values. -/

namespace Sys2Proof.Config

/-- ODD_PC_POLICY (R10, R122): what a fetch at an odd PC does. -/
inductive OddPcPolicy where
  | fault
  | fetch
deriving DecidableEq, Repr

/-- KEY_WAIT_SELECT (R10, R265): which of several pressed keys FX0A takes. -/
inductive KeyWaitSelect where
  | lowest
  | any
deriving DecidableEq, Repr

/-- VF_WRITE_ORDER (R10, R16): which of two writes to V[15] stays in 8XY5, 8XY6 and 8XYE. -/
inductive VfWriteOrder where
  | listed
  | flagLast
deriving DecidableEq, Repr

/-- The parameters of one engine (R10). A state carries them as plain data and nothing writes them, so a
statement about every state is a statement about every value of them. -/
structure Params where
  font : Vector Byte 80
  oddPc : OddPcPolicy
  keySelect : KeyWaitSelect
  vfOrder : VfWriteOrder
deriving DecidableEq, Repr

/-- FREE VALUE (R8, R211, log entry 5): the random byte of the `n`-th draw. No law holds of it. -/
opaque rnd : Nat → Byte

/-- FREE VALUE (R265, log entry 3): the draw that picks among several pressed keys under KEY_WAIT_SELECT = any. -/
opaque keyDraw : Nat → Nat

end Sys2Proof.Config
end

