-- ==== Sys2Proof/Machine/Defaults.lean ====
section
/-! DEFINITION. The defaults of the spec's parameters (spec/00_scope.md R10, spec/10_state.md R44) and the fixed
addresses of reset and load (R9). -/

namespace Sys2Proof.Machine

/-- Glyphs 0 to 7 of the default FONT (R44). -/
def fontGlyphs0to7 : List Byte :=
  [0xF0#8, 0x90#8, 0x90#8, 0x90#8, 0xF0#8] ++
  [0x20#8, 0x60#8, 0x20#8, 0x20#8, 0x70#8] ++
  [0xF0#8, 0x10#8, 0xF0#8, 0x80#8, 0xF0#8] ++
  [0xF0#8, 0x10#8, 0xF0#8, 0x10#8, 0xF0#8] ++
  [0x90#8, 0x90#8, 0xF0#8, 0x10#8, 0x10#8] ++
  [0xF0#8, 0x80#8, 0xF0#8, 0x10#8, 0xF0#8] ++
  [0xF0#8, 0x80#8, 0xF0#8, 0x90#8, 0xF0#8] ++
  [0xF0#8, 0x10#8, 0x20#8, 0x40#8, 0x40#8]

/-- Glyphs 8 to F of the default FONT (R44). -/
def fontGlyphs8toF : List Byte :=
  [0xF0#8, 0x90#8, 0xF0#8, 0x90#8, 0xF0#8] ++
  [0xF0#8, 0x90#8, 0xF0#8, 0x10#8, 0xF0#8] ++
  [0xF0#8, 0x90#8, 0xF0#8, 0x90#8, 0x90#8] ++
  [0xE0#8, 0x90#8, 0xE0#8, 0x90#8, 0xE0#8] ++
  [0xF0#8, 0x80#8, 0x80#8, 0x80#8, 0xF0#8] ++
  [0xE0#8, 0x90#8, 0x90#8, 0x90#8, 0xE0#8] ++
  [0xF0#8, 0x80#8, 0xF0#8, 0x80#8, 0xF0#8] ++
  [0xF0#8, 0x80#8, 0xF0#8, 0x80#8, 0x80#8]

/-- The default FONT, glyph d at 5d to 5d + 4 (R43, R44; PRESUMED: the spec takes the bytes from general knowledge,
log entry 1). -/
def defaultFont : Vector Byte 80 :=
  Vector.ofFn fun a => (fontGlyphs0to7 ++ fontGlyphs8toF).getD a.val 0x00#8

/-- The defaults of R10 (DESIGN CHOICE of the spec: decisions D3, D5, D7, D11; log entries 1 to 4). -/
def defaultParams : Config.Params :=
  { font := defaultFont, oddPc := .fault, keySelect := .lowest, vfOrder := .listed }

/-- PROG_BASE: the PC after reset and the address a ROM is loaded at (R9). -/
def progBase : Word := 0x200#16

/-- MEM_SIZE: addresses 0x000 to 0xFFF exist (R9, R60). -/
def memSize : Nat := 0x1000

end Sys2Proof.Machine
end

