-- ==== Sys2Proof/Machine/Memory.lean ====
section
/-! DEFINITION. Memory: the bytes that differ from the reset contents, in one canonical form (spec/20_memory.md R60,
R67, R68; spec/10_state.md R42, R43; log entry 10). -/

namespace Sys2Proof.Machine

/-- What an address the list does not hold reads as: the reset contents, FONT at 0x000..0x04F and 0x00 elsewhere
(R42, R43). -/
def resetByte (font : Vector Byte 80) (a : Nat) : Byte :=
  if h : a < 80 then font[a] else 0x00#8

/-- The byte at an address: the one listed, else `base` of it (`base` is `resetByte` of the engine's FONT). -/
def Memory.read (base : Nat → Byte) : List Host.Cell → Nat → Byte
  | [], a => base a
  | (b, v) :: rest, a => if b = a then v else Memory.read base rest a

/-- The list without the address. -/
def Memory.erase : List Host.Cell → Nat → List Host.Cell
  | [], _ => []
  | (b, v) :: rest, a => if b = a then Memory.erase rest a else (b, v) :: Memory.erase rest a

/-- A cell put before the first higher address. -/
def Memory.insert : List Host.Cell → Nat → Byte → List Host.Cell
  | [], a, v => [(a, v)]
  | (b, u) :: rest, a, v => if a < b then (a, v) :: (b, u) :: rest else (b, u) :: Memory.insert rest a v

/-- A byte written (R67): writing what an unlisted address reads as leaves the address unlisted. -/
def Memory.write (base : Nat → Byte) (m : List Host.Cell) (a : Nat) (v : Byte) : List Host.Cell :=
  if v = base a then Memory.erase m a else Memory.insert (Memory.erase m a) a v

/-- Every listed address is above `a`. -/
def Memory.allAbove (a : Nat) (m : List Host.Cell) : Bool :=
  m.all fun c => decide (a < c.1)

/-- The canonical form: addresses strictly rising, all of them below 0x1000 (R60), and no entry equal to what an
unlisted address reads as. -/
def Memory.wf (base : Nat → Byte) : List Host.Cell → Bool
  | [] => true
  | (a, v) :: rest => decide (a < memSize) && (v != base a) && Memory.allAbove a rest && Memory.wf base rest

end Sys2Proof.Machine
end

