-- ==== Sys2Proof/Machine/State.lean ====
section
/-! DEFINITION. The state of the engine as plain data (spec/10_state.md R20 to R42), the fatal conditions, and the
state after reset (spec/70_reset_and_hazards.md R330). -/

namespace Sys2Proof.Machine

/-- The fatal conditions a step can end in (R281). All of them are safe: the spec itself says the condition is
reported and nothing changes (R15, R131), and the host operation `step` goes on from the unchanged state. -/
inductive Fault where
  /-- Raised by CALL with 16 return addresses held (R282). Safe. -/
  | stackOverflow
  /-- Raised by RET with an empty stack (R283). Safe. -/
  | stackUnderflow
  /-- Raised by a fetch, DRW, LD.B, LD.store and LD.load at an address above 0xFFF; carries the first such address
  (R63, R286, log entry 11). Safe. -/
  | addressOutOfRange (addr : Nat)
  /-- Raised by a fetch at an odd PC when ODD_PC_POLICY = fault; carries PC (R287, log entry 2). Safe. -/
  | misalignedFetch (pc : Word)
  /-- Raised by SKP and SKNP naming a key above 15; carries V[x] (R288, log entry 12). Safe. -/
  | keyOutOfRange (v : Byte)
deriving DecidableEq, Repr

/-- Why the model gives no meaning. No arm of this model uses it: every instruction has its meaning. -/
inductive Refusal where
  /-- An instruction whose arm is still rejected by name. Safe: nothing is claimed of it. -/
  | notModelled (mnemonic : String)
deriving DecidableEq, Repr

/-- The result of a cycle (R128). -/
inductive Result where
  /-- `Ok(redraw)`: the cycle ended normally; `redraw` is 1 exactly for CLS and DRW. -/
  | ok (redraw : Bool)
  /-- `WaitingForKey(x)`: FX0A or the waiting cycle found no pressed key. -/
  | waitingForKey (x : Nib)
  /-- `UnknownOpcode(W)`: no row of the instruction list matches the word. -/
  | unknownOpcode (w : Word)
  /-- A fatal condition. -/
  | fatal (f : Fault)
deriving DecidableEq, Repr

/-- The whole state (R20), then the model's bookkeeping (R41, R289), the inputs and draws of R211 and R301, and the
parameters of R10. -/
structure State where
  /-- MEM: the bytes that differ from the reset contents (R60, log entry 10). -/
  mem : List Host.Cell
  /-- V[0] to V[15] (R21). -/
  v : Vector Byte 16
  /-- The program counter (R24). -/
  pc : Word
  /-- The index register I (R27). -/
  i : Word
  /-- SP: the number of return addresses held, 0 to 16 (R30, log entry 9). -/
  sp : Fin 17
  /-- STACK[0] to STACK[15] (R31). -/
  stack : Vector Word 16
  /-- FB: bit `r * 64 + c` is the pixel at column c and row r (R35). -/
  fb : BitVec 2048
  /-- REDRAW (R33). -/
  redraw : Bool
  /-- The delay timer (R28). -/
  dt : Byte
  /-- The sound timer (R29). -/
  st : Byte
  /-- The keyboard latch, `true` pressed (R34). -/
  key : Vector Bool 16
  /-- KW.active: halted on a key wait (R36). -/
  kwActive : Bool
  /-- KW.reg: the register the wait fills (R36). -/
  kwReg : Nib
  /-- IR, the instruction latch (R37, log entry 8). -/
  ir : Word
  /-- Bookkeeping: the result of the last cycle (R128, log entry 6). -/
  result : Option Result
  /-- Bookkeeping: the sticky mark of a fatal condition (R289). -/
  faulted : Bool
  /-- Bookkeeping: the sticky mark of an unknown word (R289). -/
  unknownSeen : Bool
  /-- The draw `rnd` the host supplied with this step, if it did (R120, R301, log entry 5). -/
  rndIn : Option Byte
  /-- How many free draws have been taken (R211, R265, log entry 5). -/
  draws : Nat
  /-- The parameters of R10; nothing writes them (log entry 23). -/
  params : Config.Params
deriving DecidableEq, Repr

/-- The state after reset of an engine with the given parameters, `draws` free draws having been taken before:
every piece of state at the value of R42 (R330), the bookkeeping cleared as the start of a new run (R289). -/
def State.resetWith (params : Config.Params) (draws : Nat) : State :=
  { mem := []
    v := Vector.replicate 16 0x00#8
    pc := progBase
    i := 0x0000#16
    sp := 0
    stack := Vector.replicate 16 0x0000#16
    fb := 0#2048
    redraw := false
    dt := 0x00#8
    st := 0x00#8
    key := Vector.replicate 16 false
    kwActive := false
    kwReg := 0x0#4
    ir := 0x0000#16
    result := none
    faulted := false
    unknownSeen := false
    rndIn := none
    draws := draws
    params := params }

/-- The machine right after reset, with the default parameters of R10 and no draw taken. -/
def State.reset : State :=
  State.resetWith defaultParams 0

end Sys2Proof.Machine
end

