-- ==== Sys2Proof/Machine/Ops.lean ====
section
/-! DEFINITION. The named operations over registers, memory, stack, keys and program counter that every meaning is
written with, and the one operation by which a cycle ends in a condition. -/

namespace Sys2Proof.Machine

/-- What an instruction or a step answers. -/
abbrev Out := Host.Outcome State Fault Refusal

/-- `raise` (R15, R280, R291): the cycle ends at once, every staged write is discarded, no state is saved and control
does not move. There is no return from a condition (R292): the host steps again from the unchanged state, resets or
loads (`Sys2Proof.Machine.hostOp`). -/
def raise (f : Fault) : Out :=
  .fault f

/-- The result of the cycle recorded (R128). -/
def State.report (s : State) (r : Result) : State :=
  { s with result := some r }

/-- The end of a cycle with a result (R124, R128): its writes take effect. -/
def finish (s : State) (r : Result) : Out :=
  .next (s.report r)

/-- The number of VF, register 15 (R22). -/
def vf : Nib := 0xF#4

/-- `V[x]` (R14). -/
def State.getV (s : State) (x : Nib) : Byte :=
  s.v[x.toNat]'x.isLt

/-- `V[x] <- b` (R14, R21: no register is hardwired). -/
def State.setV (s : State) (x : Nib) (b : Byte) : State :=
  { s with v := s.v.set x.toNat b x.isLt }

/-- `pc <- target`; every write of PC is taken mod 2^16 (R26). -/
def State.setPc (s : State) (target : Word) : State :=
  { s with pc := target }

/-- `Next()` (R127). -/
def State.nextPc (s : State) : State :=
  { s with pc := s.pc + 2#16 }

/-- `Skip(c)` (R127): the skipped word is neither fetched nor decoded. -/
def State.skipIf (s : State) (c : Bool) : State :=
  { s with pc := s.pc + (if c then 4#16 else 2#16) }

/-- `I <- w` (R27). -/
def State.setI (s : State) (w : Word) : State :=
  { s with i := w }

/-- What an unlisted address reads as on this engine (R42, R43). -/
def State.base (s : State) : Nat → Byte :=
  resetByte s.params.font

/-- `MemRead(a, 1)` (R14). Every user checks the address first (`checkRange`, `fetch`). -/
def State.readByte (s : State) (a : Nat) : Byte :=
  Memory.read s.base s.mem a

/-- `MemWrite(a, 1, b)` (R14). -/
def State.writeByte (s : State) (a : Nat) (b : Byte) : State :=
  { s with mem := Memory.write s.base s.mem a b }

/-- Bytes written at consecutive increasing addresses (R65). -/
def State.writeBytes (s : State) (a : Nat) : List Byte → State
  | [] => s
  | b :: rest => (s.writeByte a b).writeBytes (a + 1) rest

/-- The first of the addresses `base .. base + n - 1` that is above 0xFFF, in access order (R63). -/
def firstOutOfRange (base n : Nat) : Option Nat :=
  ((List.range n).map (base + ·)).find? fun a => decide (0xFFF < a)

/-- The range check before any write (R63, decision D4): the body runs when every address exists. -/
def checkRange (base n : Nat) (body : Out) : Out :=
  match firstOutOfRange base n with
  | some a => raise (.addressOutOfRange a)
  | none => body

/-- `Push(v)` (R32). -/
def State.push (s : State) (w : Word) : Except Fault State :=
  if h : s.sp.val < 16 then
    .ok { s with stack := s.stack.set s.sp.val w h, sp := ⟨s.sp.val + 1, by omega⟩ }
  else .error .stackOverflow

/-- `Pop()` (R32): the entry read is not cleared (R31). -/
def State.pop (s : State) : Except Fault (Word × State) :=
  if h : 0 < s.sp.val then
    .ok (s.stack[s.sp.val - 1]'(by omega), { s with sp := ⟨s.sp.val - 1, by omega⟩ })
  else .error .stackUnderflow

/-- `KEY[k]` (R34). -/
def State.keyDown (s : State) (k : Nib) : Bool :=
  s.key[k.toNat]'k.isLt

/-- The pressed keys, lowest first. -/
def State.pressedKeys (s : State) : List Nib :=
  ((List.range 16).map (BitVec.ofNat 4)).filter s.keyDown

/-- `SelectKey()` (R265): none, or the lowest pressed key, or under `any` the one a free draw picks. -/
def State.selectKey (s : State) : Option Nib :=
  match s.params.keySelect with
  | .lowest => s.pressedKeys.head?
  | .any => s.pressedKeys[Config.keyDraw s.draws % s.pressedKeys.length]?

/-- The state once a key has been selected: under `any` a draw has been taken. -/
def State.keyTaken (s : State) : State :=
  match s.params.keySelect with
  | .lowest => s
  | .any => { s with draws := s.draws + 1 }

/-- The 8-bit draw of the cycle (R120, R211): the byte the host supplied with the step, else a free value. -/
def State.draw (s : State) : Byte :=
  match s.rndIn with
  | some b => b
  | none => Config.rnd s.draws

/-- The state once the draw of the cycle has been used. -/
def State.drawTaken (s : State) : State :=
  { s with rndIn := none, draws := s.draws + 1 }

/-- `IR <- W` (R120, R121). -/
def State.latch (s : State) (w : Word) : State :=
  { s with ir := w }

end Sys2Proof.Machine
end

