-- ==== Sys2Proof/Machine/Flags.lean ====
section
/-! DEFINITION. Every flag the instructions compute into VF (spec/10_state.md R38) and the order of a result write and
a flag write to one register (spec/00_scope.md R16). -/

namespace Sys2Proof.Machine

/-- A flag as VF holds it. -/
def flagByte (c : Bool) : Byte :=
  if c then 0x01#8 else 0x00#8

/-- Carry of 8XY4: the exact sum exceeds 255 (R206). -/
def carryFlag (a b : Byte) : Byte :=
  flagByte (decide (255 < a.toNat + b.toNat))

/-- Not-borrow of 8XY5: strictly greater (R207). -/
def notBorrowFlag (a b : Byte) : Byte :=
  flagByte (decide (b.toNat < a.toNat))

/-- The bit 8XY6 shifts out: `a AND 1` (R208). -/
def shiftRightFlag (a : Byte) : Byte :=
  a &&& 0x01#8

/-- The bit 8XYE shifts out: `(a >> 7) AND 1` (R209). -/
def shiftLeftFlag (a : Byte) : Byte :=
  (a >>> 7) &&& 0x01#8

/-- The flag of FX1E: the exact sum reaches 0xFFF (R231, decision D12). -/
def indexFlag (i : Word) (b : Byte) : Byte :=
  flagByte (decide (0xFFF ≤ i.toNat + b.toNat))

/-- Result, then flag: the flag stays when x = 15 (8XY4, R206). -/
def State.writeThenFlag (s : State) (x : Nib) (result flag : Byte) : State :=
  (s.setV x result).setV vf flag

/-- The two writes of 8XY5, 8XY6 and 8XYE in the order VF_WRITE_ORDER gives (R16, decision D3): under `listed` the
result stays when x = 15, under `flag_last` the flag. -/
def State.writeFlagged (s : State) (x : Nib) (result flag : Byte) : State :=
  match s.params.vfOrder with
  | .listed => (s.setV vf flag).setV x result
  | .flagLast => s.writeThenFlag x result flag

end Sys2Proof.Machine
end

