-- ==== Sys2Proof/Machine/Alu.lean ====
section
/-! DEFINITION. Register loads and arithmetic (spec/44_register_alu.md). Operands are read from the state before any
write (spec/00_scope.md R16). -/

namespace Sys2Proof.Machine

/-- A plain register result: `V[x] <- b ; Next()`. -/
def writeReg (x : Nib) (b : Byte) (s : State) : Out :=
  finish (s.setV x b).nextPc (.ok false)

/-- LD Vx, nn, 6XNN (R200). -/
def execLdImm (x : Nib) (nn : Byte) (s : State) : Out :=
  writeReg x nn s

/-- ADD Vx, nn, 7XNN (R201): no flag. -/
def execAddImm (x : Nib) (nn : Byte) (s : State) : Out :=
  writeReg x (s.getV x + nn) s

/-- LD Vx, Vy, 8XY0 (R202). -/
def execLdReg (x y : Nib) (s : State) : Out :=
  writeReg x (s.getV y) s

/-- OR Vx, Vy, 8XY1 (R203). -/
def execOr (x y : Nib) (s : State) : Out :=
  writeReg x (s.getV x ||| s.getV y) s

/-- AND Vx, Vy, 8XY2 (R204). -/
def execAnd (x y : Nib) (s : State) : Out :=
  writeReg x (s.getV x &&& s.getV y) s

/-- XOR Vx, Vy, 8XY3 (R205). -/
def execXor (x y : Nib) (s : State) : Out :=
  writeReg x (s.getV x ^^^ s.getV y) s

/-- ADD Vx, Vy, 8XY4 (R206): result, then carry. -/
def execAddReg (x y : Nib) (s : State) : Out :=
  finish (s.writeThenFlag x (s.getV x + s.getV y) (carryFlag (s.getV x) (s.getV y))).nextPc (.ok false)

/-- SUB Vx, Vy, 8XY5 (R207). -/
def execSub (x y : Nib) (s : State) : Out :=
  finish (s.writeFlagged x (s.getV x - s.getV y) (notBorrowFlag (s.getV x) (s.getV y))).nextPc (.ok false)

/-- SHR Vx, 8XY6 (R208): V[x] is shifted; the field y is ignored. -/
def execShr (x _y : Nib) (s : State) : Out :=
  finish (s.writeFlagged x (s.getV x >>> 1) (shiftRightFlag (s.getV x))).nextPc (.ok false)

/-- SHL Vx, 8XYE (R209): V[x] is shifted; the field y is ignored. -/
def execShl (x _y : Nib) (s : State) : Out :=
  finish (s.writeFlagged x (s.getV x <<< 1) (shiftLeftFlag (s.getV x))).nextPc (.ok false)

/-- RND Vx, nn, CXNN (R211): the draw of the cycle masked. -/
def execRnd (x : Nib) (nn : Byte) (s : State) : Out :=
  finish (s.drawTaken.setV x (s.draw &&& nn)).nextPc (.ok false)

end Sys2Proof.Machine
end

