-- ==== Sys2Proof/Machine/Operands.lean ====
section
/-! DEFINITION. The operand forms: zero-extended immediates (spec/30_encoding.md R93), the key a register names
(R94), the decimal digits, the register block of FX55 and FX65, and the pixel a sprite bit lands on. -/

namespace Sys2Proof.Machine

/-- `zext_16(nnn)` (R93). -/
def zextAddr (nnn : Imm12) : Word :=
  nnn.setWidth 16

/-- A byte as a 16-bit value (R93, R13: never sign-extended). -/
def zextByte (b : Byte) : Word :=
  b.setWidth 16

/-- The latch of the key numbered by a register's value, or KeyOutOfRange (R184, R185, R288, decision D6). -/
def State.namedKey (s : State) (k : Byte) : Except Fault Bool :=
  if h : k.toNat < 16 then .ok s.key[k.toNat] else .error (.keyOutOfRange k)

/-- The address of the glyph of a digit (R232): `d * 5`, with no mask (decision D13). -/
def glyphAddress (d : Byte) : Word :=
  BitVec.ofNat 16 (d.toNat * 5)

/-- The hundreds, tens and units of a byte (R233). -/
def decimalDigits (v : Byte) : List Byte :=
  [BitVec.ofNat 8 (v.toNat / 100), BitVec.ofNat 8 (v.toNat / 10 % 10), BitVec.ofNat 8 (v.toNat % 10)]

/-- V[0] to V[x], the bytes FX55 stores (R234). -/
def State.firstRegs (s : State) (x : Nib) : List Byte :=
  s.v.toList.take (x.toNat + 1)

/-- V[0] to V[x] loaded from the bytes at `a`, the registers above x kept (R235). -/
def State.loadRegs (s : State) (x : Nib) (a : Nat) : State :=
  { s with v := Vector.ofFn fun k => if k.val ≤ x.toNat then s.readByte (a + k.val) else s.v[k] }

/-- `PixIndex(c, r) = (r mod 32) * 64 + (c mod 64)` (R141). -/
def pixIndex (c r : Nat) : Nat :=
  r % 32 * 64 + c % 64

end Sys2Proof.Machine
end

