-- ==== Sys2Proof/Machine/ControlFlow.lean ====
section
/-! DEFINITION. Jumps, calls and returns (spec/42_control_flow.md). -/

namespace Sys2Proof.Machine

/-- RET, 00EE (R160): back to the word after the call. -/
def execRet (s : State) : Out :=
  match s.pop with
  | .ok (a, s') => finish (s'.setPc (a + 2#16)) (.ok false)
  | .error f => raise f

/-- JP nnn, 1NNN (R161). -/
def execJp (nnn : Imm12) (s : State) : Out :=
  finish (s.setPc (zextAddr nnn)) (.ok false)

/-- CALL nnn, 2NNN (R162): the address of this word is pushed. -/
def execCall (nnn : Imm12) (s : State) : Out :=
  match s.push s.pc with
  | .ok s' => finish (s'.setPc (zextAddr nnn)) (.ok false)
  | .error f => raise f

/-- JP V0, nnn, BNNN (R163): always V[0]. -/
def execJpV0 (nnn : Imm12) (s : State) : Out :=
  finish (s.setPc (zextAddr nnn + zextByte (s.getV 0x0#4))) (.ok false)

end Sys2Proof.Machine
end

