-- ==== Sys2Proof/Machine/Display.lean ====
section
/-! DEFINITION. The display instructions and sprite compositing (spec/41_display.md). -/

namespace Sys2Proof.Machine

/-- The display and the collision found so far while a sprite is drawn. -/
structure Canvas where
  fb : BitVec 2048
  hit : Bool
deriving DecidableEq, Repr

/-- One sprite bit (R143): a 0 leaves its pixel alone; a 1 toggles it and records a collision if it was 1. -/
def Canvas.drawBit (c : Canvas) (bit : Bool) (p : Nat) : Canvas :=
  if bit then { fb := c.fb ^^^ BitVec.twoPow 2048 p, hit := c.hit || c.fb.getLsbD p } else c

/-- One sprite row: bit 7 is column 0 (R142, R143). -/
def Canvas.drawRow (c : Canvas) (cx cy row : Nat) (b : Byte) : Canvas :=
  (List.range 8).foldl (fun c col => c.drawBit (b.getLsbD (7 - col)) (pixIndex (cx + col) (cy + row))) c

/-- The rows `row`, `row + 1`, … of a sprite, one byte each. -/
def Canvas.drawRows (c : Canvas) (cx cy row : Nat) : List Byte → Canvas
  | [] => c
  | b :: rest => (c.drawRow cx cy row b).drawRows cx cy (row + 1) rest

/-- The n bytes of a sprite at address `a` (R143). -/
def State.spriteBytes (s : State) (a n : Nat) : List Byte :=
  (List.range n).map fun row => s.readByte (a + row)

/-- The display and collision flag DXYN leaves: the sprite at I drawn at (V[x], V[y]) (R143). -/
def State.drawSprite (s : State) (x y n : Nib) : Canvas :=
  Canvas.drawRows { fb := s.fb, hit := false } (s.getV x).toNat (s.getV y).toNat 0 (s.spriteBytes s.i.toNat n.toNat)

/-- A canvas put back into the state: the display, the collision flag and REDRAW (R143). -/
def State.showCanvas (s : State) (c : Canvas) : State :=
  { s.setV vf (flagByte c.hit) with fb := c.fb, redraw := true }

/-- CLS, 00E0 (R140). -/
def execCls (s : State) : Out :=
  finish { s with fb := 0#2048, redraw := true }.nextPc (.ok true)

/-- DRW Vx, Vy, n, DXYN (R141 to R143, decision D24). -/
def execDrw (x y n : Nib) (s : State) : Out :=
  checkRange s.i.toNat n.toNat (finish (s.showCanvas (s.drawSprite x y n)).nextPc (.ok true))

end Sys2Proof.Machine
end

