-- ==== Sys2Proof/Machine/IndexMemory.lean ====
section
/-! DEFINITION. The index register and memory transfers (spec/45_index_memory.md). -/

namespace Sys2Proof.Machine

/-- LD I, nnn, ANNN (R230). -/
def execLdI (nnn : Imm12) (s : State) : Out :=
  finish (s.setI (zextAddr nnn)).nextPc (.ok false)

/-- ADD I, Vx, FX1E (R231): I takes the sum mod 2^16, VF the flag of the exact sum. -/
def execAddI (x : Nib) (s : State) : Out :=
  finish ((s.setI (s.i + zextByte (s.getV x))).setV vf (indexFlag s.i (s.getV x))).nextPc (.ok false)

/-- LD F, Vx, FX29 (R232). -/
def execLdF (x : Nib) (s : State) : Out :=
  finish (s.setI (glyphAddress (s.getV x))).nextPc (.ok false)

/-- LD B, Vx, FX33 (R233): hundreds, tens, units at I, I + 1, I + 2. -/
def execLdB (x : Nib) (s : State) : Out :=
  checkRange s.i.toNat 3 (finish (s.writeBytes s.i.toNat (decimalDigits (s.getV x))).nextPc (.ok false))

/-- LD [I], Vx, FX55 (R234): I unchanged (decision D14). -/
def execLdStore (x : Nib) (s : State) : Out :=
  checkRange s.i.toNat (x.toNat + 1) (finish (s.writeBytes s.i.toNat (s.firstRegs x)).nextPc (.ok false))

/-- LD Vx, [I], FX65 (R235): I unchanged (decision D14). -/
def execLdLoad (x : Nib) (s : State) : Out :=
  checkRange s.i.toNat (x.toNat + 1) (finish (s.loadRegs x s.i.toNat).nextPc (.ok false))

end Sys2Proof.Machine
end

