-- ==== Sys2Proof/Machine/Skips.lean ====
section
/-! DEFINITION. Conditional skips (spec/43_skips.md). -/

namespace Sys2Proof.Machine

/-- A skip on a condition: PC advances by 4 or 2, nothing else changes (R127). -/
def skipOn (c : Bool) (s : State) : Out :=
  finish (s.skipIf c) (.ok false)

/-- A skip on the latch of the key V[x] names, wanted pressed or released (R184, R185). -/
def skipOnKey (x : Nib) (wanted : Bool) (s : State) : Out :=
  match s.namedKey (s.getV x) with
  | .ok down => skipOn (down == wanted) s
  | .error f => raise f

/-- SE Vx, nn, 3XNN (R180). -/
def execSeImm (x : Nib) (nn : Byte) (s : State) : Out :=
  skipOn (s.getV x == nn) s

/-- SNE Vx, nn, 4XNN (R181). -/
def execSneImm (x : Nib) (nn : Byte) (s : State) : Out :=
  skipOn (s.getV x != nn) s

/-- SE Vx, Vy, 5XY0 (R182). -/
def execSeReg (x y : Nib) (s : State) : Out :=
  skipOn (s.getV x == s.getV y) s

/-- SNE Vx, Vy, 9XY0 (R183). -/
def execSneReg (x y : Nib) (s : State) : Out :=
  skipOn (s.getV x != s.getV y) s

/-- SKP Vx, EX9E (R184). -/
def execSkp (x : Nib) (s : State) : Out :=
  skipOnKey x true s

/-- SKNP Vx, EXA1 (R185). -/
def execSknp (x : Nib) (s : State) : Out :=
  skipOnKey x false s

end Sys2Proof.Machine
end

