-- ==== Sys2Proof/Machine/TimersKeyboard.lean ====
section
/-! DEFINITION. Timer and keyboard instructions and the waiting cycle (spec/46_timers_keyboard.md). -/

namespace Sys2Proof.Machine

/-- LD Vx, DT, FX07 (R260). -/
def execLdVxDt (x : Nib) (s : State) : Out :=
  finish (s.setV x s.dt).nextPc (.ok false)

/-- A found key stored: `V[x] <- k ; Next()` (R261, R262). -/
def State.storeKey (s : State) (x k : Nib) : State :=
  (s.keyTaken.setV x (k.setWidth 8)).nextPc

/-- LD Vx, K, FX0A (R261): a held key completes it at once; with none the engine enters the key wait and PC stays. -/
def execLdVxK (x : Nib) (s : State) : Out :=
  match s.selectKey with
  | none => finish { s with kwActive := true, kwReg := x } (.waitingForKey x)
  | some k => finish (s.storeKey x k) (.ok false)

/-- LD DT, Vx, FX15 (R263). -/
def execLdDt (x : Nib) (s : State) : Out :=
  finish { s with dt := s.getV x }.nextPc (.ok false)

/-- LD ST, Vx, FX18 (R264). -/
def execLdSt (x : Nib) (s : State) : Out :=
  finish { s with st := s.getV x }.nextPc (.ok false)

/-- The waiting cycle (R262): nothing is fetched; a pressed key ends the wait. -/
def waitCycle (s : State) : Out :=
  match s.selectKey with
  | none => finish s (.waitingForKey s.kwReg)
  | some k => finish { s.storeKey s.kwReg k with kwActive := false } (.ok false)

end Sys2Proof.Machine
end

