-- ==== Sys2Proof/Machine/Fetch.lean ====
section
/-! DEFINITION. Fetch, its checks, and the cycle of an unknown word (spec/40_execution_cycle.md R121, R122, R125). -/

namespace Sys2Proof.Machine

/-- The fetch conditions in the order of R122; `none` when the word at PC can be read. -/
def State.fetchFault (s : State) : Option Fault :=
  if s.pc.toNat % 2 = 1 ∧ s.params.oddPc = .fault then some (.misalignedFetch s.pc)
  else if 0xFFF < s.pc.toNat then some (.addressOutOfRange s.pc.toNat)
  else if 0xFFF < s.pc.toNat + 1 then some (.addressOutOfRange (s.pc.toNat + 1))
  else none

/-- W: the two bytes combined big-endian (R62, R121). -/
def State.fetchedWord (s : State) : Word :=
  wordOfBytes (s.readByte s.pc.toNat) (s.readByte (s.pc.toNat + 1))

/-- The cycle of an unknown word (R125, R284): PC + 2, the word reported and the sticky mark set (R289). -/
def unknownWord (w : Word) (s : State) : Out :=
  finish { s.nextPc with unknownSeen := true } (.unknownOpcode w)

/-- An instruction's bytes placed where the next fetch reads: at PC, with no key wait in the way (R120, R121). -/
def State.placeAtPc (s : State) (bytes : List Byte) : State :=
  { s.writeBytes s.pc.toNat bytes with kwActive := false }

end Sys2Proof.Machine
end

