-- ==== Sys2Proof/Machine/Step.lean ====
section
/-! DEFINITION. One execution cycle (spec/40_execution_cycle.md R120). -/

namespace Sys2Proof.Machine

/-- One execution cycle (R120, priority R290): the waiting cycle while KW.active, else a fetch condition, else the
fetched word latched in IR and executed, or passed over if no row of R100 matches it. -/
def step (s : State) : Host.Outcome State Fault Refusal :=
  if s.kwActive then waitCycle s
  else
    match s.fetchFault with
    | some f => raise f
    | none =>
      match decode s.fetchedWord with
      | some i => exec i (s.latch s.fetchedWord)
      | none => unknownWord s.fetchedWord (s.latch s.fetchedWord)

/-- The state with a table row's instruction stored where the next fetch reads it (the host's numbering of bits,
`Sys2Proof.tableWordBytes`); a key wait, which fetches nothing, is ended (log entry 19). -/
def State.withFetchWord (s : State) (nbits w : Nat) : State :=
  s.placeAtPc (tableWordBytes nbits w)

end Sys2Proof.Machine
end

