-- ==== Sys2Proof/Machine/Conditions.lean ====
section
/-! DEFINITION. The conditions an operation can report, with their codes (spec/60_exceptions.md R281). -/

namespace Sys2Proof.Machine

/-- The seven conditions of R281, without the information they record. -/
inductive Condition where
  | outOfRange
  | stackOverflow
  | stackUnderflow
  | unknownOpcode
  | addressOutOfRange
  | misalignedFetch
  | keyOutOfRange
deriving DecidableEq, Repr

/-- The code column of R281. -/
def Condition.code : Condition → Nat
  | .outOfRange => 1
  | .stackOverflow => 2
  | .stackUnderflow => 3
  | .unknownOpcode => 4
  | .addressOutOfRange => 5
  | .misalignedFetch => 6
  | .keyOutOfRange => 7

/-- The fatal column of R281: only UnknownOpcode is not fatal (R284). -/
def Condition.fatal : Condition → Bool
  | .unknownOpcode => false
  | .outOfRange | .stackOverflow | .stackUnderflow | .addressOutOfRange | .misalignedFetch | .keyOutOfRange => true

/-- The condition a step's fault is. -/
def Fault.condition : Fault → Condition
  | .stackOverflow => .stackOverflow
  | .stackUnderflow => .stackUnderflow
  | .addressOutOfRange _ => .addressOutOfRange
  | .misalignedFetch _ => .misalignedFetch
  | .keyOutOfRange _ => .keyOutOfRange

/-- The condition a cycle's result reports; `Ok` and `WaitingForKey` are statuses, not conditions (R281). -/
def Result.condition : Result → Option Condition
  | .ok _ => none
  | .waitingForKey _ => none
  | .unknownOpcode _ => some .unknownOpcode
  | .fatal f => some f.condition

end Sys2Proof.Machine
end

