-- ==== Sys2Proof/Machine/HostOps.lean ====
section
/-! DEFINITION. The nine host operations, each one atomic transition (spec/60_exceptions.md R300 to R310;
spec/70_reset_and_hazards.md R330 to R334). The host has no other move (R310): a key index is below 16 by its type. -/

namespace Sys2Proof.Machine

/-- A host operation with its inputs (R300). -/
inductive HostOp where
  | reset
  | load (rom : List Byte)
  | step (rnd : Byte)
  | tick
  | getDisplay
  | consumeRedraw
  | soundTimer
  | setKey (index : Nib) (pressed : Bool)
  | dump
deriving DecidableEq, Repr

/-- The register snapshot dump returns: V, PC, SP, I, DT, ST and KEY, and not MEM, STACK, FB, REDRAW or KW (R307). -/
structure Snapshot where
  v : Vector Byte 16
  pc : Word
  sp : Fin 17
  i : Word
  dt : Byte
  st : Byte
  key : Vector Bool 16
deriving DecidableEq, Repr

/-- The output of a host operation (R300). -/
inductive HostOut where
  /-- reset, tick, setKey: no output. -/
  | noOutput
  /-- load that fitted. -/
  | loaded
  /-- load that did not fit (R285). -/
  | outOfRange
  /-- The result of a step (R128). -/
  | result (r : Result)
  /-- getDisplay's copy of FB (R303). -/
  | display (fb : BitVec 2048)
  /-- consumeRedraw's REDRAW before the call (R304). -/
  | redraw (flag : Bool)
  /-- soundTimer's ST (R305). -/
  | sound (st : Byte)
  /-- dump's snapshot (R307). -/
  | snapshot (d : Snapshot)
  /-- A step of an instruction without a meaning: no arm of this model answers so. -/
  | refused (r : Refusal)
deriving DecidableEq, Repr

/-- Reset (R330, R331): every piece of state at its reset value whatever it was; the parameters are the engine's own
and the random source is outside the engine. -/
def State.doReset (s : State) : State :=
  State.resetWith s.params s.draws

/-- A ROM of this many bytes fits from 0x200 to the top of memory (R333). -/
def romFits (length : Nat) : Bool :=
  decide (progBase.toNat + length ≤ memSize)

/-- Tick (R302, R311): each timer down by 1, never below 0, in every mode (decision D31). -/
def State.doTick (s : State) : State :=
  { s with
    dt := if 0x00#8 < s.dt then s.dt - 1#8 else s.dt
    st := if 0x00#8 < s.st then s.st - 1#8 else s.st }

/-- `KEY[index] <- pressed` (R306). -/
def State.setKey (s : State) (index : Nib) (pressed : Bool) : State :=
  { s with key := s.key.set index.toNat pressed index.isLt }

/-- The snapshot of R307. -/
def State.snapshot (s : State) : Snapshot :=
  { v := s.v, pc := s.pc, sp := s.sp, i := s.i, dt := s.dt, st := s.st, key := s.key }

/-- The derived tone output (R305). -/
def State.tone (s : State) : Bool :=
  s.st != 0x00#8

/-- One step with its draw (R301). A fatal condition leaves the whole state as it was (R15, R131); the model keeps the
report and the sticky mark (R289), neither of which is hardware state (R41). -/
def hostStep (rnd : Byte) (s : State) : HostOut × State :=
  match step { s with rndIn := some rnd } with
  | .next s' => (match s'.result with | some r => .result r | none => .noOutput, { s' with rndIn := none })
  | .fault f => (.result (.fatal f), { s with result := some (.fatal f), faulted := true, rndIn := none })
  | .refused r => (.refused r, s)

/-- One host operation (R300). -/
def hostOp (op : HostOp) (s : State) : HostOut × State :=
  match op with
  | .reset => (.noOutput, s.doReset)
  | .load rom => if romFits rom.length then (.loaded, s.writeBytes progBase.toNat rom) else (.outOfRange, s)
  | .step rnd => hostStep rnd s
  | .tick => (.noOutput, s.doTick)
  | .getDisplay => (.display s.fb, s)
  | .consumeRedraw => (.redraw s.redraw, { s with redraw := false })
  | .soundTimer => (.sound s.st, s)
  | .setKey index pressed => (.noOutput, s.setKey index pressed)
  | .dump => (.snapshot s.snapshot, s)

/-- A sequence of host operations, in the order the host calls them (R70, R300): the state it leaves. -/
def hostRun : List HostOp → State → State
  | [], s => s
  | op :: rest, s => hostRun rest (hostOp op s).2

end Sys2Proof.Machine
end

