-- ==== Sys2Proof/Safety.lean ====
section
/-! DEFINITION. What counts as a safe run, an idle, waiting or faulted state, the invariant, and the groups of
instructions, in the terms statements use (spec/40_execution_cycle.md R132, R133; spec/10_state.md R22, R27, R30). -/

namespace Sys2Proof.Machine

/-- The canonical form of memory (log entry 10). -/
def State.memWf (s : State) : Bool :=
  Memory.wf s.base s.mem

/-- While a key wait lasts, IR still holds the FX0A word that entered it, with the waiting register as its X field
(R36, R73, R261, R262). -/
def State.waitLatched (s : State) : Bool :=
  !s.kwActive || s.ir == encode (.ldVxK s.kwReg)

/-- While a key wait lasts, the last cycle's result is WaitingForKey of the waiting register (R128, R132). -/
def State.waitReported (s : State) : Bool :=
  !s.kwActive || s.result == some (.waitingForKey s.kwReg)

/-- The invariant every step keeps: memory in canonical form, a key wait with its FX0A word still latched and its
status reported. -/
def State.inv (s : State) : Prop :=
  s.memWf = true ∧ s.waitLatched = true ∧ s.waitReported = true

/-- An idle state (R133): not waiting, PC even with its word in memory, and that word a jump to itself. -/
def State.idle (s : State) : Prop :=
  s.kwActive = false ∧ s.pc.toNat + 1 ≤ 0xFFF ∧ s.pc.toNat % 2 = 0 ∧
    ∃ nnn : Imm12, decode s.fetchedWord = some (.jp nnn) ∧ nnn.toNat = s.pc.toNat

/-- The states of a run (R133): reset, load, then any sequence of host operations. -/
def State.reachedBy (params : Config.Params) (rom : List Byte) (ops : List HostOp) : State :=
  hostRun ops (hostOp (.load rom) (State.resetWith params 0)).2

/-- A run ends in an idle state that no fatal condition came before, by the mark of R289 (decision D27, a function of
the state). A waiting state is not idle, so a waiting run has not ended. -/
def State.ended (s : State) : Prop :=
  s.idle ∧ s.faulted = false

/-- The state of a run after its first `n` host operations. -/
def runState (params : Config.Params) (rom : List Byte) (ops : List HostOp) (n : Nat) : State :=
  State.reachedBy params rom (ops.take n)

/-- The operation number `k` of a run (from 0) is a step whose result is a fatal condition. -/
def fatalAt (params : Config.Params) (rom : List Byte) (ops : List HostOp) (k : Nat) : Prop :=
  ∃ rnd f, ops[k]? = some (.step rnd) ∧ (hostOp (.step rnd) (runState params rom ops k)).1 = .result (.fatal f)

/-- A run faults at the first step whose result is a fatal condition (R133). -/
def faultsAt (params : Config.Params) (rom : List Byte) (ops : List HostOp) (k : Nat) : Prop :=
  fatalAt params rom ops k ∧ ∀ j < k, ¬fatalAt params rom ops j

/-- A run ends after `n` host operations when that state is its first idle one and no step before had a fatal
condition: a faulted run never ends (R133). -/
def endsAt (params : Config.Params) (rom : List Byte) (ops : List HostOp) (n : Nat) : Prop :=
  n ≤ ops.length ∧ (runState params rom ops n).idle ∧
    ∀ m < n, ¬(runState params rom ops m).idle ∧ ¬fatalAt params rom ops m

/-- A step that ends in no fatal condition and meets no unknown word: what a claim about a program takes as its
premise (R289). -/
def State.safeStep (s : State) : Prop :=
  ∃ t, step s = .next t ∧ ∀ w, t.result ≠ some (.unknownOpcode w)

/-- A run that has met no fatal condition and no unknown word (R289). -/
def State.cleanRun (s : State) : Prop :=
  s.faulted = false ∧ s.unknownSeen = false

/-! Terms the statements are written in -/

/-- Every address reads as before. -/
def State.sameBytes (s t : State) : Prop :=
  ∀ a, t.readByte a = s.readByte a

/-- The cycle returned `Ok(0)` and left PC at `pc` mod 2^16 (R26, R128). -/
def State.okAt (t : State) (pc : Nat) : Prop :=
  t.pc.toNat = pc % 65536 ∧ t.result = some (.ok false)

/-- Nothing but PC and the reported result differs. -/
def State.onlyPc (s t : State) : Prop :=
  t = { s with pc := t.pc, result := t.result } ∧ s.sameBytes t

/-- Nothing but the register file, PC and the reported result differs. -/
def State.onlyRegs (s t : State) : Prop :=
  t = { s with v := t.v, pc := t.pc, result := t.result } ∧ s.sameBytes t

/-- Nothing but I, PC and the reported result differs. -/
def State.onlyIndex (s t : State) : Prop :=
  t = { s with i := t.i, pc := t.pc, result := t.result } ∧ s.sameBytes t

/-- Nothing but memory, PC and the reported result differs. -/
def State.onlyMem (s t : State) : Prop :=
  t = { s with mem := t.mem, pc := t.pc, result := t.result }

/-- The words the decoder reads as `mk w` are exactly those of the row with this mask and match (R100). -/
def decodesRow (mask value : Word) (mk : Word → Instr) : Prop :=
  ∀ w, decode w = some (mk w) ↔ w &&& mask = value

/-- The registers an instruction may write: its destination, and VF where the instruction writes it as a flag (R22). -/
def writesReg (i : Instr) (r : Nib) : Bool :=
  match i with
  | .ldImm x _ | .addImm x _ | .ldReg x _ | .orReg x _ | .andReg x _ | .xorReg x _ | .rnd x _ | .ldVxDt x | .ldVxK x =>
    r == x
  | .addReg x _ | .sub x _ | .shr x _ | .shl x _ => r == x || r == vf
  | .drw _ _ _ | .addI _ => r == vf
  | .ldLoad x => decide (r.toNat ≤ x.toNat)
  | .cls | .ret | .jp _ | .call _ | .seImm _ _ | .sneImm _ _ | .seReg _ _ | .sneReg _ _ | .ldI _ | .jpV0 _ | .skp _
  | .sknp _ | .ldDt _ | .ldSt _ | .ldF _ | .ldB _ | .ldStore _ => false

/-- How many bytes an instruction stores from address I on (R61). -/
def storedBytes (i : Instr) : Nat :=
  match i with
  | .ldB _ => 3
  | .ldStore x => x.toNat + 1
  | .cls | .ret | .jp _ | .call _ | .seImm _ _ | .sneImm _ _ | .seReg _ _ | .ldImm _ _ | .addImm _ _ | .ldReg _ _
  | .orReg _ _ | .andReg _ _ | .xorReg _ _ | .addReg _ _ | .sub _ _ | .shr _ _ | .shl _ _ | .sneReg _ _ | .ldI _
  | .jpV0 _ | .rnd _ _ | .drw _ _ _ | .skp _ | .sknp _ | .ldVxDt _ | .ldVxK _ | .ldDt _ | .ldSt _ | .addI _ | .ldF _
  | .ldLoad _ => 0

/-- The bytes an instruction accesses in memory from address I on (R61). -/
def accessedBytes (i : Instr) : Nat :=
  match i with
  | .drw _ _ n => n.toNat
  | .ldB _ => 3
  | .ldStore x | .ldLoad x => x.toNat + 1
  | .cls | .ret | .jp _ | .call _ | .seImm _ _ | .sneImm _ _ | .seReg _ _ | .ldImm _ _ | .addImm _ _ | .ldReg _ _
  | .orReg _ _ | .andReg _ _ | .xorReg _ _ | .addReg _ _ | .sub _ _ | .shr _ _ | .shl _ _ | .sneReg _ _ | .ldI _
  | .jpV0 _ | .rnd _ _ | .skp _ | .sknp _ | .ldVxDt _ | .ldVxK _ | .ldDt _ | .ldSt _ | .addI _ | .ldF _ => 0

/-- CLS and DRW, the instructions that write the display and set REDRAW (R33, R144). -/
def writesDisplay (i : Instr) : Bool :=
  match i with
  | .cls | .drw _ _ _ => true
  | .ret | .jp _ | .call _ | .seImm _ _ | .sneImm _ _ | .seReg _ _ | .ldImm _ _ | .addImm _ _ | .ldReg _ _
  | .orReg _ _ | .andReg _ _ | .xorReg _ _ | .addReg _ _ | .sub _ _ | .shr _ _ | .shl _ _ | .sneReg _ _ | .ldI _
  | .jpV0 _ | .rnd _ _ | .skp _ | .sknp _ | .ldVxDt _ | .ldVxK _ | .ldDt _ | .ldSt _ | .addI _ | .ldF _ | .ldB _
  | .ldStore _ | .ldLoad _ => false

/-- The condition an instruction's own execution meets, if it meets one (R281, R290): what the instruction rules name,
said of the state before the cycle. -/
def executeFault (i : Instr) (s : State) : Option Fault :=
  match i with
  | .call _ => if s.sp.val = 16 then some .stackOverflow else none
  | .ret => if s.sp.val = 0 then some .stackUnderflow else none
  | .skp x | .sknp x => if 15 < (s.getV x).toNat then some (.keyOutOfRange (s.getV x)) else none
  | .drw _ _ _ | .ldB _ | .ldStore _ | .ldLoad _ =>
    if accessedBytes i ≠ 0 ∧ 0x1000 < s.i.toNat + accessedBytes i then
      some (.addressOutOfRange (max s.i.toNat 0x1000))
    else none
  | .cls | .jp _ | .seImm _ _ | .sneImm _ _ | .seReg _ _ | .ldImm _ _ | .addImm _ _ | .ldReg _ _ | .orReg _ _
  | .andReg _ _ | .xorReg _ _ | .addReg _ _ | .sub _ _ | .shr _ _ | .shl _ _ | .sneReg _ _ | .ldI _ | .jpV0 _
  | .rnd _ _ | .ldVxDt _ | .ldVxK _ | .ldDt _ | .ldSt _ | .addI _ | .ldF _ => none

/-- The new PC of an executed instruction as the table of R126 gives it, before the reduction mod 2^16. -/
def pcAfter (i : Instr) (s : State) : Nat :=
  match i with
  | .seImm x nn => s.pc.toNat + if s.getV x = nn then 4 else 2
  | .sneImm x nn => s.pc.toNat + if s.getV x = nn then 2 else 4
  | .seReg x y => s.pc.toNat + if s.getV x = s.getV y then 4 else 2
  | .sneReg x y => s.pc.toNat + if s.getV x = s.getV y then 2 else 4
  | .skp x => s.pc.toNat + if s.keyDown ((s.getV x).setWidth 4) then 4 else 2
  | .sknp x => s.pc.toNat + if s.keyDown ((s.getV x).setWidth 4) then 2 else 4
  | .jp nnn | .call nnn => nnn.toNat
  | .jpV0 nnn => nnn.toNat + (s.getV 0x0#4).toNat
  | .ret => (s.stack.toList.getD (s.sp.val - 1) 0#16).toNat + 2
  | .ldVxK _ => if ∃ k, s.keyDown k = true then s.pc.toNat + 2 else s.pc.toNat
  | .cls | .ldImm _ _ | .addImm _ _ | .ldReg _ _ | .orReg _ _ | .andReg _ _ | .xorReg _ _ | .addReg _ _ | .sub _ _
  | .shr _ _ | .shl _ _ | .ldI _ | .rnd _ _ | .drw _ _ _ | .ldVxDt _ | .ldDt _ | .ldSt _ | .addI _ | .ldF _ | .ldB _
  | .ldStore _ | .ldLoad _ => s.pc.toNat + 2

/-- The sprite bit that falls on pixel `p` when the n-row sprite at I is drawn at (V[x], V[y]), found from the pixel's
own place: how far right of the start column and below the start row it lies, mod 64 and mod 32 (R141, R142). -/
def State.spriteBit (s : State) (x y n : Nib) (p : Nat) : Bool :=
  let col := (p % 64 + 64 - (s.getV x).toNat % 64) % 64
  let row := (p / 64 + 32 - (s.getV y).toNat % 32) % 32
  decide (col < 8) && decide (row < n.toNat) && (s.readByte (s.i.toNat + row)).getLsbD (7 - col)

end Sys2Proof.Machine
end

