-- ==== Sys2Proof/Certificates/Slice0/Obligations.lean ====
section
/-! DEFINITION. The statements for the provers, from the numbered rules of spec/. A docstring names the rule, and the
log entry of notes/assumptions where a clause is the model's or the spec's own choice. -/

open Sys2Proof Sys2Proof.Machine

/-! Encoding -/

/-- Tier 3. Decoding an encoded instruction gives it back, every operand at every value, whatever bytes follow (R90,
R92, R100; every instruction is well formed). -/
def Obligations.DecodeOfEncode : Prop :=
  ∀ (i : Instr) (rest : List Byte),
    i.wellFormed = true ∧ decode (encode i) = some i ∧ decodeBytes (encodeBytes i ++ rest) = .ok (i, rest)

/-- Encoding a decoded instruction gives the word back: no bit of an instruction word is dropped (R104). -/
def Obligations.EncodeOfDecode : Prop :=
  ∀ (w : Word) (i : Instr), decode w = some i → encode i = w

/-- The complete instruction list: a word is decoded as the instruction of a row, with the fields of R91 as operands,
exactly when `(W AND mask) = match` (R100). -/
def Obligations.DecodeFollowsTable : Prop :=
  decodesRow 0xFFFF#16 0x00E0#16 (fun _ => .cls) ∧
  decodesRow 0xFFFF#16 0x00EE#16 (fun _ => .ret) ∧
  decodesRow 0xF000#16 0x1000#16 (fun w => .jp (fieldNNN w)) ∧
  decodesRow 0xF000#16 0x2000#16 (fun w => .call (fieldNNN w)) ∧
  decodesRow 0xF000#16 0x3000#16 (fun w => .seImm (fieldX w) (fieldNN w)) ∧
  decodesRow 0xF000#16 0x4000#16 (fun w => .sneImm (fieldX w) (fieldNN w)) ∧
  decodesRow 0xF00F#16 0x5000#16 (fun w => .seReg (fieldX w) (fieldY w)) ∧
  decodesRow 0xF000#16 0x6000#16 (fun w => .ldImm (fieldX w) (fieldNN w)) ∧
  decodesRow 0xF000#16 0x7000#16 (fun w => .addImm (fieldX w) (fieldNN w)) ∧
  decodesRow 0xF00F#16 0x8000#16 (fun w => .ldReg (fieldX w) (fieldY w)) ∧
  decodesRow 0xF00F#16 0x8001#16 (fun w => .orReg (fieldX w) (fieldY w)) ∧
  decodesRow 0xF00F#16 0x8002#16 (fun w => .andReg (fieldX w) (fieldY w)) ∧
  decodesRow 0xF00F#16 0x8003#16 (fun w => .xorReg (fieldX w) (fieldY w)) ∧
  decodesRow 0xF00F#16 0x8004#16 (fun w => .addReg (fieldX w) (fieldY w)) ∧
  decodesRow 0xF00F#16 0x8005#16 (fun w => .sub (fieldX w) (fieldY w)) ∧
  decodesRow 0xF00F#16 0x8006#16 (fun w => .shr (fieldX w) (fieldY w)) ∧
  decodesRow 0xF00F#16 0x800E#16 (fun w => .shl (fieldX w) (fieldY w)) ∧
  decodesRow 0xF00F#16 0x9000#16 (fun w => .sneReg (fieldX w) (fieldY w)) ∧
  decodesRow 0xF000#16 0xA000#16 (fun w => .ldI (fieldNNN w)) ∧
  decodesRow 0xF000#16 0xB000#16 (fun w => .jpV0 (fieldNNN w)) ∧
  decodesRow 0xF000#16 0xC000#16 (fun w => .rnd (fieldX w) (fieldNN w)) ∧
  decodesRow 0xF000#16 0xD000#16 (fun w => .drw (fieldX w) (fieldY w) (fieldN w)) ∧
  decodesRow 0xF0FF#16 0xE09E#16 (fun w => .skp (fieldX w)) ∧
  decodesRow 0xF0FF#16 0xE0A1#16 (fun w => .sknp (fieldX w)) ∧
  decodesRow 0xF0FF#16 0xF007#16 (fun w => .ldVxDt (fieldX w)) ∧
  decodesRow 0xF0FF#16 0xF00A#16 (fun w => .ldVxK (fieldX w)) ∧
  decodesRow 0xF0FF#16 0xF015#16 (fun w => .ldDt (fieldX w)) ∧
  decodesRow 0xF0FF#16 0xF018#16 (fun w => .ldSt (fieldX w)) ∧
  decodesRow 0xF0FF#16 0xF01E#16 (fun w => .addI (fieldX w)) ∧
  decodesRow 0xF0FF#16 0xF029#16 (fun w => .ldF (fieldX w)) ∧
  decodesRow 0xF0FF#16 0xF033#16 (fun w => .ldB (fieldX w)) ∧
  decodesRow 0xF0FF#16 0xF055#16 (fun w => .ldStore (fieldX w)) ∧
  decodesRow 0xF0FF#16 0xF065#16 (fun w => .ldLoad (fieldX w))

/-- At most one row of the table matches a word, and the decoder answers an instruction exactly when one does (R101);
the row is the instruction's own. -/
def Obligations.OneRowOrUnknown : Prop :=
  ∀ w : Word,
    match decode w with
    | some i => ∃ r, rowOf i.rowNumber = some r ∧ rowsMatching w = [r]
    | none => rowsMatching w = [] ∧ w.isInstruction = false

/-- The unknown words are exactly the six classes of R102, each rejected by its own name (decision D9, log entry 14:
every fixed bit is checked). -/
def Obligations.UnknownWordClasses : Prop :=
  ∀ w : Word,
    (decodeWord w = .error .system ↔ w.toNat < 0x1000 ∧ w ≠ 0x00E0#16 ∧ w ≠ 0x00EE#16) ∧
    (decodeWord w = .error .seReg ↔ w.toNat / 4096 = 0x5 ∧ w.toNat % 16 ≠ 0) ∧
    (decodeWord w = .error .alu ↔ w.toNat / 4096 = 0x8 ∧ w.toNat % 16 ∈ [7, 8, 9, 10, 11, 12, 13, 15]) ∧
    (decodeWord w = .error .sneReg ↔ w.toNat / 4096 = 0x9 ∧ w.toNat % 16 ≠ 0) ∧
    (decodeWord w = .error .keySkip ↔ w.toNat / 4096 = 0xE ∧ w.toNat % 256 ∉ [0x9E, 0xA1]) ∧
    (decodeWord w = .error .misc ↔
      w.toNat / 4096 = 0xF ∧ w.toNat % 256 ∉ [0x07, 0x0A, 0x15, 0x18, 0x1E, 0x29, 0x33, 0x55, 0x65]) ∧
    decodeWord w ≠ .error .truncated

/-- A sanity statement: words written out from the encodings of R100 decode to the instructions they stand for, one of
each format and family; bytes are big-endian (R62). -/
def Obligations.DecodedWords : Prop :=
  decodeBytes [0x00#8, 0xE0#8] = .ok (.cls, []) ∧
  decodeBytes [0x12#8, 0x34#8] = .ok (.jp 0x234#12, []) ∧
  decodeBytes [0x33#8, 0x42#8] = .ok (.seImm 0x3#4 0x42#8, []) ∧
  decodeBytes [0x80#8, 0x14#8] = .ok (.addReg 0x0#4 0x1#4, []) ∧
  decodeBytes [0xD1#8, 0x25#8] = .ok (.drw 0x1#4 0x2#4 0x5#4, []) ∧
  decodeBytes [0xF2#8, 0x55#8] = .ok (.ldStore 0x2#4, []) ∧
  decodeBytes [0xF5#8, 0x0A#8] = .ok (.ldVxK 0x5#4, []) ∧
  decodeBytes [0x81#8, 0x27#8] = .error .alu

/-! The cycle -/

/-- A step runs the decoded instruction: when not waiting, with nothing stopping the fetch, and the two bytes at PC
decoding to an instruction, the step is that instruction's meaning on the state with the word latched in IR (R120, R121,
R124; log entry 8). Nothing else is added around it. -/
def Obligations.StepRunsDecoded : Prop :=
  ∀ (s : State) (i : Instr),
    s.kwActive = false → s.fetchFault = none →
    decodeBytes [s.readByte s.pc.toNat, s.readByte (s.pc.toNat + 1)] = .ok (i, []) →
    i.wellFormed = true ∧ step s = exec i { s with ir := encode i }

/-- When the fetch is stopped, and by what: not waiting, an odd PC under ODD_PC_POLICY = fault, else PC above 0xFFF,
else PC + 1 above 0xFFF; otherwise not at all (R122; log entries 2 and 11: these checks are the spec's decisions). -/
def Obligations.FetchChecks : Prop :=
  ∀ s : State,
    (s.kwActive = false → s.pc.toNat % 2 = 1 → s.params.oddPc = .fault →
      step s = .fault (.misalignedFetch s.pc)) ∧
    (s.kwActive = false → (s.pc.toNat % 2 = 0 ∨ s.params.oddPc = .fetch) → 0xFFF < s.pc.toNat + 1 →
      step s = .fault (.addressOutOfRange (max s.pc.toNat 0x1000))) ∧
    (s.fetchFault = none ↔ (s.pc.toNat % 2 = 0 ∨ s.params.oddPc = .fetch) ∧ s.pc.toNat + 1 ≤ 0xFFF)

/-- An unknown word: PC + 2, the word reported, the mark set, nothing else changed (R125; log entries 7, 8, 14: that
nothing else changes is the spec's decision D10, the mark and the latch are the model's). -/
def Obligations.UnknownWordStep : Prop :=
  ∀ s : State, s.kwActive = false → s.fetchFault = none → decode s.fetchedWord = none →
    ∃ t, step s = .next t ∧ t.pc.toNat = (s.pc.toNat + 2) % 65536 ∧
      t.result = some (.unknownOpcode s.fetchedWord) ∧
      t = { s with pc := t.pc, result := t.result, ir := s.fetchedWord, unknownSeen := true } ∧ s.sameBytes t

/-- The waiting cycle: with no key pressed nothing changes but the report; with a key pressed V[KW.reg] takes a pressed
key (the lowest under KEY_WAIT_SELECT = lowest), the wait ends and PC passes the FX0A word (R262, R265; log entries 3
and 13: decisions D7 and D8; the draw counter is the model's, log entry 5). -/
def Obligations.WaitingCycle : Prop :=
  ∀ s : State, s.kwActive = true →
    ((∀ k, s.keyDown k = false) →
      step s = .next { s with result := some (.waitingForKey s.kwReg) }) ∧
    (∀ k, s.keyDown k = true →
      ∃ t j, step s = .next t ∧ s.keyDown j = true ∧ (s.params.keySelect = .lowest → j.toNat ≤ k.toNat) ∧
        t.okAt (s.pc.toNat + 2) ∧ t.getV s.kwReg = BitVec.ofNat 8 j.toNat ∧
        (∀ r, r ≠ s.kwReg → t.getV r = s.getV r) ∧
        t = { s with v := t.v, pc := t.pc, result := t.result, kwActive := false, draws := t.draws } ∧
        (s.params.keySelect = .lowest → t.draws = s.draws) ∧ s.sameBytes t)

/-- The result of a cycle (R128): a next state reports `Ok`, `WaitingForKey` or `UnknownOpcode`, a step is never refused,
and an instruction reports `Ok(1)` exactly when it is CLS or DRW, whatever REDRAW held before (decisions D16 and D17, log
entry 15). -/
def Obligations.StepAlwaysReports : Prop :=
  (∀ s : State,
    match step s with
    | .next t =>
      (∃ redraw, t.result = some (.ok redraw)) ∨ (∃ x, t.result = some (.waitingForKey x)) ∨
        t.result = some (.unknownOpcode s.fetchedWord)
    | .fault _ => True
    | .refused _ => False) ∧
  ∀ (i : Instr) (s t : State), exec i s = .next t → (t.result = some (.ok true) ↔ writesDisplay i = true)

/-! Register loads and arithmetic: every instruction completes in every state -/

/-- LD Vx, nn (R200). -/
def Obligations.LoadImmediate : Prop :=
  decodesRow 0xF000#16 0x6000#16 (fun w => .ldImm (fieldX w) (fieldNN w)) ∧
  ∀ (x : Nib) (nn : Byte) (s : State), ∃ t, exec (.ldImm x nn) s = .next t ∧
    t.okAt (s.pc.toNat + 2) ∧ t.getV x = nn ∧ (∀ r, r ≠ x → t.getV r = s.getV r) ∧ s.onlyRegs t

/-- ADD Vx, nn (R201): wraps, VF untouched unless x = 15. -/
def Obligations.AddImmediate : Prop :=
  decodesRow 0xF000#16 0x7000#16 (fun w => .addImm (fieldX w) (fieldNN w)) ∧
  ∀ (x : Nib) (nn : Byte) (s : State), ∃ t, exec (.addImm x nn) s = .next t ∧
    t.okAt (s.pc.toNat + 2) ∧ (t.getV x).toNat = ((s.getV x).toNat + nn.toNat) % 256 ∧
    (∀ r, r ≠ x → t.getV r = s.getV r) ∧ s.onlyRegs t

/-- LD Vx, Vy (R202). -/
def Obligations.CopyRegister : Prop :=
  decodesRow 0xF00F#16 0x8000#16 (fun w => .ldReg (fieldX w) (fieldY w)) ∧
  ∀ (x y : Nib) (s : State), ∃ t, exec (.ldReg x y) s = .next t ∧
    t.okAt (s.pc.toNat + 2) ∧ t.getV x = s.getV y ∧ (∀ r, r ≠ x → t.getV r = s.getV r) ∧ s.onlyRegs t

/-- OR, AND, XOR, bit by bit (R203 to R205); VF is not written unless x = 15 (decision D15, log entry 15). -/
def Obligations.LogicOperations : Prop :=
  ∀ (x y : Nib) (s : State),
    (∃ t, exec (.orReg x y) s = .next t ∧ t.okAt (s.pc.toNat + 2) ∧
      (∀ k, (t.getV x).getLsbD k = ((s.getV x).getLsbD k || (s.getV y).getLsbD k)) ∧
      (∀ r, r ≠ x → t.getV r = s.getV r) ∧ s.onlyRegs t) ∧
    (∃ t, exec (.andReg x y) s = .next t ∧ t.okAt (s.pc.toNat + 2) ∧
      (∀ k, (t.getV x).getLsbD k = ((s.getV x).getLsbD k && (s.getV y).getLsbD k)) ∧
      (∀ r, r ≠ x → t.getV r = s.getV r) ∧ s.onlyRegs t) ∧
    (∃ t, exec (.xorReg x y) s = .next t ∧ t.okAt (s.pc.toNat + 2) ∧
      (∀ k, (t.getV x).getLsbD k = ((s.getV x).getLsbD k ^^ (s.getV y).getLsbD k)) ∧
      (∀ r, r ≠ x → t.getV r = s.getV r) ∧ s.onlyRegs t)

/-- ADD Vx, Vy (R206): the sum mod 256 and the carry, the carry staying when x = 15. -/
def Obligations.AddWithCarry : Prop :=
  decodesRow 0xF00F#16 0x8004#16 (fun w => .addReg (fieldX w) (fieldY w)) ∧
  ∀ (x y : Nib) (s : State), ∃ t, exec (.addReg x y) s = .next t ∧
    t.okAt (s.pc.toNat + 2) ∧
    (x ≠ vf → (t.getV x).toNat = ((s.getV x).toNat + (s.getV y).toNat) % 256) ∧
    (t.getV vf).toNat = (if 255 < (s.getV x).toNat + (s.getV y).toNat then 1 else 0) ∧
    (∀ r, r ≠ x → r ≠ vf → t.getV r = s.getV r) ∧ s.onlyRegs t

/-- SUB Vx, Vy (R207): the difference mod 256 and the strict not-borrow flag; which of the two V[15] keeps when x = 15
is VF_WRITE_ORDER's (decision D3, log entry 4). -/
def Obligations.SubtractNotBorrow : Prop :=
  ∀ (x y : Nib) (s : State), ∃ t, exec (.sub x y) s = .next t ∧
    t.okAt (s.pc.toNat + 2) ∧
    (x ≠ vf ∨ s.params.vfOrder = .listed →
      (t.getV x).toNat = ((s.getV x).toNat + 256 - (s.getV y).toNat) % 256) ∧
    (x ≠ vf ∨ s.params.vfOrder = .flagLast →
      (t.getV vf).toNat = if (s.getV y).toNat < (s.getV x).toNat then 1 else 0) ∧
    (∀ r, r ≠ x → r ≠ vf → t.getV r = s.getV r) ∧ s.onlyRegs t

/-- SHR and SHL (R208, R209): V[x] halved or doubled mod 256, the bit shifted out in VF, the field y without effect
(decision D15, log entry 15); which of the two V[15] keeps when x = 15 is VF_WRITE_ORDER's (decision D3, log entry 4). -/
def Obligations.Shifts : Prop :=
  ∀ (x y : Nib) (s : State),
    (∃ t, exec (.shr x y) s = .next t ∧ t.okAt (s.pc.toNat + 2) ∧
      (x ≠ vf ∨ s.params.vfOrder = .listed → (t.getV x).toNat = (s.getV x).toNat / 2) ∧
      (x ≠ vf ∨ s.params.vfOrder = .flagLast → (t.getV vf).toNat = (s.getV x).toNat % 2) ∧
      (∀ r, r ≠ x → r ≠ vf → t.getV r = s.getV r) ∧ s.onlyRegs t) ∧
    (∃ t, exec (.shl x y) s = .next t ∧ t.okAt (s.pc.toNat + 2) ∧
      (x ≠ vf ∨ s.params.vfOrder = .listed → (t.getV x).toNat = (s.getV x).toNat * 2 % 256) ∧
      (x ≠ vf ∨ s.params.vfOrder = .flagLast → (t.getV vf).toNat = (s.getV x).toNat / 128) ∧
      (∀ r, r ≠ x → r ≠ vf → t.getV r = s.getV r) ∧ s.onlyRegs t)

/-- RND Vx, nn (R211): V[x] is the cycle's draw masked; the draw is the host's byte if it supplied one and otherwise the
free value of the draw counter, which no law binds (log entry 5, decision D28), and it is used once. -/
def Obligations.RandomMasked : Prop :=
  ∀ (x : Nib) (nn : Byte) (s : State), ∃ t rnd, exec (.rnd x nn) s = .next t ∧
    (∀ b, s.rndIn = some b → rnd = b) ∧ (s.rndIn = none → rnd = Config.rnd s.draws) ∧
    t.okAt (s.pc.toNat + 2) ∧ t.getV x = rnd &&& nn ∧ (∀ r, r ≠ x → t.getV r = s.getV r) ∧
    t = { s with v := t.v, pc := t.pc, result := t.result, rndIn := none, draws := s.draws + 1 } ∧ s.sameBytes t

/-! Skips -/

/-- SE Vx, nn and SNE Vx, nn (R180, R181): PC + 4 or PC + 2, the second the complement of the first; no register, flag
or memory is written. -/
def Obligations.SkipImmediate : Prop :=
  decodesRow 0xF000#16 0x3000#16 (fun w => .seImm (fieldX w) (fieldNN w)) ∧
  decodesRow 0xF000#16 0x4000#16 (fun w => .sneImm (fieldX w) (fieldNN w)) ∧
  ∀ (x : Nib) (nn : Byte) (s : State),
    (∃ t, exec (.seImm x nn) s = .next t ∧
      t.okAt (s.pc.toNat + if (s.getV x).toNat = nn.toNat then 4 else 2) ∧ s.onlyPc t) ∧
    (∃ t, exec (.sneImm x nn) s = .next t ∧
      t.okAt (s.pc.toNat + if (s.getV x).toNat = nn.toNat then 2 else 4) ∧ s.onlyPc t)

/-- SE Vx, Vy and SNE Vx, Vy (R182, R183); x = y always skips the first and never the second. -/
def Obligations.SkipRegisters : Prop :=
  decodesRow 0xF00F#16 0x5000#16 (fun w => .seReg (fieldX w) (fieldY w)) ∧
  decodesRow 0xF00F#16 0x9000#16 (fun w => .sneReg (fieldX w) (fieldY w)) ∧
  ∀ (x y : Nib) (s : State),
    (∃ t, exec (.seReg x y) s = .next t ∧
      t.okAt (s.pc.toNat + if (s.getV x).toNat = (s.getV y).toNat then 4 else 2) ∧ s.onlyPc t) ∧
    (∃ t, exec (.sneReg x y) s = .next t ∧
      t.okAt (s.pc.toNat + if (s.getV x).toNat = (s.getV y).toNat then 2 else 4) ∧ s.onlyPc t)

/-- SKP and SKNP (R184, R185): on a key 0 to 15 they skip by its latch; naming a key above 15 they end in KeyOutOfRange
(decision D6, log entry 12). -/
def Obligations.SkipOnKey : Prop :=
  ∀ (x : Nib) (s : State),
    (∀ h : (s.getV x).toNat < 16,
      (∃ t, exec (.skp x) s = .next t ∧
        t.okAt (s.pc.toNat + if s.key[(s.getV x).toNat] = true then 4 else 2) ∧ s.onlyPc t) ∧
      (∃ t, exec (.sknp x) s = .next t ∧
        t.okAt (s.pc.toNat + if s.key[(s.getV x).toNat] = true then 2 else 4) ∧ s.onlyPc t)) ∧
    (15 < (s.getV x).toNat →
      exec (.skp x) s = .fault (.keyOutOfRange (s.getV x)) ∧ exec (.sknp x) s = .fault (.keyOutOfRange (s.getV x)))

/-! Control flow -/

/-- JP nnn (R161) and JP V0, nnn (R163): nothing but PC changes, no condition in this cycle whatever the target; the
offset is always V[0]. -/
def Obligations.Jumps : Prop :=
  decodesRow 0xF000#16 0x1000#16 (fun w => .jp (fieldNNN w)) ∧
  decodesRow 0xF000#16 0xB000#16 (fun w => .jpV0 (fieldNNN w)) ∧
  ∀ (nnn : Imm12) (s : State),
    (∃ t, exec (.jp nnn) s = .next t ∧ t.okAt nnn.toNat ∧ s.onlyPc t) ∧
    (∃ t, exec (.jpV0 nnn) s = .next t ∧ t.okAt (nnn.toNat + (s.getV 0x0#4).toNat) ∧ s.onlyPc t)

/-- CALL nnn (R162): with fewer than 16 entries the address of this word is pushed; with 16, StackOverflow. -/
def Obligations.Call : Prop :=
  decodesRow 0xF000#16 0x2000#16 (fun w => .call (fieldNNN w)) ∧
  ∀ (nnn : Imm12) (s : State),
    (∀ h : s.sp.val < 16, ∃ t, exec (.call nnn) s = .next t ∧ t.okAt nnn.toNat ∧
      t.sp.val = s.sp.val + 1 ∧ t.stack[s.sp.val] = s.pc ∧
      (∀ (j : Nat) (hj : j < 16), j ≠ s.sp.val → t.stack[j] = s.stack[j]) ∧
      t = { s with pc := t.pc, result := t.result, sp := t.sp, stack := t.stack } ∧ s.sameBytes t) ∧
    (s.sp.val = 16 → exec (.call nnn) s = .fault .stackOverflow)

/-- RET (R160): with an entry held, PC is the popped address + 2 and the entry is not cleared; with none,
StackUnderflow. -/
def Obligations.Return : Prop :=
  decodesRow 0xFFFF#16 0x00EE#16 (fun _ => .ret) ∧
  ∀ s : State,
    (∀ h : 0 < s.sp.val, ∃ t, exec .ret s = .next t ∧ t.okAt ((s.stack[s.sp.val - 1]'(by omega)).toNat + 2) ∧
      t.sp.val = s.sp.val - 1 ∧ t = { s with pc := t.pc, result := t.result, sp := t.sp } ∧ s.sameBytes t) ∧
    (s.sp.val = 0 → exec .ret s = .fault .stackUnderflow)

/-- A call and then a return: PC is the word after the call and SP is back; nothing else has changed but the stale
stack entry (R164, derived in the spec from R160 and R162). -/
def Obligations.CallThenReturn : Prop :=
  ∀ (nnn : Imm12) (s t : State), exec (.call nnn) s = .next t →
    ∃ u, exec .ret t = .next u ∧ u.okAt (s.pc.toNat + 2) ∧
      u = { s with pc := u.pc, result := u.result, stack := u.stack } ∧
      (∀ (j : Nat) (hj : j < 16), j ≠ s.sp.val → u.stack[j] = s.stack[j])

/-! Display -/

/-- CLS (R140): every cell 0 and REDRAW set, whatever they were; VF unchanged. -/
def Obligations.ClearDisplay : Prop :=
  decodesRow 0xFFFF#16 0x00E0#16 (fun _ => .cls) ∧
  ∀ s : State, ∃ t, exec .cls s = .next t ∧ t.pc.toNat = (s.pc.toNat + 2) % 65536 ∧ t.result = some (.ok true) ∧
    (∀ p, p < 2048 → t.fb.getLsbD p = false) ∧ t.redraw = true ∧
    t = { s with fb := t.fb, redraw := t.redraw, pc := t.pc, result := t.result } ∧ s.sameBytes t

/-- DRW completes when n = 0 or the last sprite byte exists: REDRAW set, only VF, the display, PC and the report differ;
otherwise the lowest address above 0xFFF is reported (R143; decisions D4 and D24, log entries 11 and 15). -/
def Obligations.DrawCompletes : Prop :=
  ∀ (x y n : Nib) (s : State),
    (n.toNat = 0 ∨ s.i.toNat + n.toNat ≤ 0x1000 → ∃ t, exec (.drw x y n) s = .next t ∧
      t.pc.toNat = (s.pc.toNat + 2) % 65536 ∧ t.result = some (.ok true) ∧ t.redraw = true ∧
      (∀ r, r ≠ vf → t.getV r = s.getV r) ∧
      t = { s with v := t.v, fb := t.fb, redraw := t.redraw, pc := t.pc, result := t.result } ∧ s.sameBytes t) ∧
    (n.toNat ≠ 0 → 0x1000 < s.i.toNat + n.toNat →
      exec (.drw x y n) s = .fault (.addressOutOfRange (max s.i.toNat 0x1000)))

/-- Sprite compositing (R141, R143): each pixel is exclusive-ored with the sprite bit that wraps onto it, and VF is 1
exactly when some set bit met a pixel that was 1. The sprite bit of a pixel is found from the pixel's place, not by
repeating the drawing loop. -/
def Obligations.DrawPixels : Prop :=
  ∀ (x y n : Nib) (s t : State), exec (.drw x y n) s = .next t →
    (∀ p, p < 2048 → t.fb.getLsbD p = (s.fb.getLsbD p ^^ s.spriteBit x y n p)) ∧
    ((∃ p, p < 2048 ∧ s.spriteBit x y n p = true ∧ s.fb.getLsbD p = true) → t.getV vf = 0x01#8) ∧
    ((∀ p, p < 2048 → s.spriteBit x y n p = true → s.fb.getLsbD p = false) → t.getV vf = 0x00#8)

/-- Drawing the same sprite at the same place twice restores the display (the source's property L1-6), for
coordinates not held in VF; on the second drawing VF says whether a set bit falls on a pixel that was 0 at first, which
from a blank display is whether the sprite has a set bit at all. -/
def Obligations.DrawTwiceRestores : Prop :=
  ∀ (x y n : Nib) (s t : State), x ≠ vf → y ≠ vf → exec (.drw x y n) s = .next t →
    ∃ u, exec (.drw x y n) t = .next u ∧ u.fb = s.fb ∧
      (u.getV vf = 0x01#8 ↔ ∃ p, p < 2048 ∧ s.spriteBit x y n p = true ∧ s.fb.getLsbD p = false) ∧
      (s.fb = 0#2048 → (u.getV vf = 0x01#8 ↔
        ∃ row col, row < n.toNat ∧ col < 8 ∧ (s.readByte (s.i.toNat + row)).getLsbD col = true))

/-! Index register and memory -/

/-- LD I, nnn (R230). -/
def Obligations.LoadIndex : Prop :=
  decodesRow 0xF000#16 0xA000#16 (fun w => .ldI (fieldNNN w)) ∧
  ∀ (nnn : Imm12) (s : State), ∃ t, exec (.ldI nnn) s = .next t ∧
    t.okAt (s.pc.toNat + 2) ∧ t.i.toNat = nnn.toNat ∧ s.onlyIndex t

/-- ADD I, Vx (R231): I takes the sum mod 2^16, VF whether the exact sum reaches 0xFFF (decision D12). LD F, Vx (R232):
I = V[x] × 5, no mask (decision D13). Log entry 15. -/
def Obligations.IndexArithmetic : Prop :=
  ∀ (x : Nib) (s : State),
    (∃ t, exec (.addI x) s = .next t ∧
      t.okAt (s.pc.toNat + 2) ∧ t.i.toNat = (s.i.toNat + (s.getV x).toNat) % 65536 ∧
      (t.getV vf).toNat = (if 0xFFF ≤ s.i.toNat + (s.getV x).toNat then 1 else 0) ∧
      (∀ r, r ≠ vf → t.getV r = s.getV r) ∧
      t = { s with v := t.v, i := t.i, pc := t.pc, result := t.result } ∧ s.sameBytes t) ∧
    (∃ t, exec (.ldF x) s = .next t ∧
      t.okAt (s.pc.toNat + 2) ∧ t.i.toNat = (s.getV x).toNat * 5 ∧ s.onlyIndex t)

/-- LD B, Vx (R233): the three digits of V[x], most significant first, at I, I + 1, I + 2; every other byte as before;
with I + 2 above 0xFFF, AddressOutOfRange and nothing written (decision D4, log entry 11). -/
def Obligations.DecimalDigits : Prop :=
  ∀ (x : Nib) (s : State),
    (s.i.toNat + 2 ≤ 0xFFF → ∃ t, exec (.ldB x) s = .next t ∧ t.okAt (s.pc.toNat + 2) ∧
      (t.readByte s.i.toNat).toNat * 100 + (t.readByte (s.i.toNat + 1)).toNat * 10 +
        (t.readByte (s.i.toNat + 2)).toNat = (s.getV x).toNat ∧
      (t.readByte (s.i.toNat + 1)).toNat ≤ 9 ∧ (t.readByte (s.i.toNat + 2)).toNat ≤ 9 ∧
      (∀ a, (a < s.i.toNat ∨ s.i.toNat + 2 < a) → t.readByte a = s.readByte a) ∧ s.onlyMem t) ∧
    (0xFFF < s.i.toNat + 2 → exec (.ldB x) s = .fault (.addressOutOfRange (max s.i.toNat 0x1000)))

/-- LD [I], Vx (R234): V[0] to V[x] at I to I + x, every other byte and I as before; out of range, nothing written
(decisions D4 and D14, log entries 11 and 15). -/
def Obligations.StoreRegisters : Prop :=
  ∀ (x : Nib) (s : State),
    (s.i.toNat + x.toNat ≤ 0xFFF → ∃ t, exec (.ldStore x) s = .next t ∧ t.okAt (s.pc.toNat + 2) ∧
      (∀ r : Nib, r.toNat ≤ x.toNat → t.readByte (s.i.toNat + r.toNat) = s.getV r) ∧
      (∀ a, (a < s.i.toNat ∨ s.i.toNat + x.toNat < a) → t.readByte a = s.readByte a) ∧ s.onlyMem t) ∧
    (0xFFF < s.i.toNat + x.toNat → exec (.ldStore x) s = .fault (.addressOutOfRange (max s.i.toNat 0x1000)))

/-- LD Vx, [I] (R235): V[0] to V[x] from I to I + x, the registers above x, I and all of memory as before; out of range,
nothing written (decisions D4 and D14, log entries 11 and 15). -/
def Obligations.LoadRegisters : Prop :=
  ∀ (x : Nib) (s : State),
    (s.i.toNat + x.toNat ≤ 0xFFF → ∃ t, exec (.ldLoad x) s = .next t ∧ t.okAt (s.pc.toNat + 2) ∧
      (∀ r : Nib, r.toNat ≤ x.toNat → t.getV r = s.readByte (s.i.toNat + r.toNat)) ∧
      (∀ r : Nib, x.toNat < r.toNat → t.getV r = s.getV r) ∧ s.onlyRegs t) ∧
    (0xFFF < s.i.toNat + x.toNat → exec (.ldLoad x) s = .fault (.addressOutOfRange (max s.i.toNat 0x1000)))

/-- Registers stored and then loaded, whatever the registers hold in between, are the registers stored (R234, R235).
That the load finds them rests on FX55 leaving I as it was, the spec's own decision D14 (log entry 15, unsafe). -/
def Obligations.StoreThenLoad : Prop :=
  ∀ (x : Nib) (s t : State) (between : Vector Byte 16), exec (.ldStore x) s = .next t →
    ∃ u, exec (.ldLoad x) { t with v := between } = .next u ∧ ∀ r : Nib, r.toNat ≤ x.toNat → u.getV r = s.getV r

/-- A store into the next instruction word is seen by the very next fetch (R73, R339; decision D30): after FX55 at the
next word's address, the fetched word is V[0] and V[1]. -/
def Obligations.StoreSeenByFetch : Prop :=
  ∀ (x : Nib) (s t : State), exec (.ldStore x) s = .next t → s.i.toNat = s.pc.toNat + 2 → 1 ≤ x.toNat →
    t.fetchedWord = wordOfBytes (s.getV 0x0#4) (s.getV 0x1#4)

/-! Timers and keyboard -/

/-- LD Vx, DT (R260), LD DT, Vx (R263) and LD ST, Vx (R264). -/
def Obligations.TimerTransfers : Prop :=
  decodesRow 0xF0FF#16 0xF007#16 (fun w => .ldVxDt (fieldX w)) ∧
  decodesRow 0xF0FF#16 0xF015#16 (fun w => .ldDt (fieldX w)) ∧
  decodesRow 0xF0FF#16 0xF018#16 (fun w => .ldSt (fieldX w)) ∧
  ∀ (x : Nib) (s : State),
    (∃ t, exec (.ldVxDt x) s = .next t ∧
      t.okAt (s.pc.toNat + 2) ∧ t.getV x = s.dt ∧ (∀ r, r ≠ x → t.getV r = s.getV r) ∧ s.onlyRegs t) ∧
    (∃ t, exec (.ldDt x) s = .next t ∧ t.okAt (s.pc.toNat + 2) ∧ t.dt = s.getV x ∧
      t = { s with dt := t.dt, pc := t.pc, result := t.result } ∧ s.sameBytes t) ∧
    (∃ t, exec (.ldSt x) s = .next t ∧ t.okAt (s.pc.toNat + 2) ∧ t.st = s.getV x ∧
      (t.tone = true ↔ s.getV x ≠ 0x00#8) ∧
      t = { s with st := t.st, pc := t.pc, result := t.result } ∧ s.sameBytes t)

/-- LD Vx, K (R261, R265): with no key pressed the key wait is entered and PC stays; with one pressed V[x] takes a
pressed key, the lowest under KEY_WAIT_SELECT = lowest (decisions D7 and D8, log entries 3 and 13; the draw counter is
the model's, log entry 5). -/
def Obligations.WaitForKey : Prop :=
  ∀ (x : Nib) (s : State),
    ((∀ k, s.keyDown k = false) →
      exec (.ldVxK x) s = .next { s with kwActive := true, kwReg := x, result := some (.waitingForKey x) }) ∧
    (∀ k, s.keyDown k = true →
      ∃ t j, exec (.ldVxK x) s = .next t ∧ s.keyDown j = true ∧
        (s.params.keySelect = .lowest → j.toNat ≤ k.toNat) ∧
        t.okAt (s.pc.toNat + 2) ∧ t.getV x = BitVec.ofNat 8 j.toNat ∧ (∀ r, r ≠ x → t.getV r = s.getV r) ∧
        t = { s with v := t.v, pc := t.pc, result := t.result, draws := t.draws } ∧
        (s.params.keySelect = .lowest → t.draws = s.draws) ∧ s.sameBytes t)

/-! Whole-machine rules -/

/-- Who writes the register file (R22): an instruction leaves every register it is not named for as it was. -/
def Obligations.RegisterWriters : Prop :=
  ∀ (i : Instr) (s t : State), exec i s = .next t → ∀ r, writesReg i r = false → t.getV r = s.getV r

/-- Who writes memory (R61): every byte outside the ones FX33 and FX55 store from I on reads as before, in one step;
the waiting cycle and an unknown word store nothing. -/
def Obligations.MemoryWriters : Prop :=
  ∀ s t : State, step s = .next t → ∀ a, t.readByte a ≠ s.readByte a →
    s.kwActive = false ∧ ∃ i, decode s.fetchedWord = some i ∧ s.i.toNat ≤ a ∧ a < s.i.toNat + storedBytes i

/-- Who writes I, the call stack and the timers in a step (R27, R28, R29, R30, R31): ANNN, FX1E and FX29; 2NNN and
00EE for SP, 2NNN alone for an entry; FX15; FX18. -/
def Obligations.SpecialRegisterWriters : Prop :=
  ∀ s t : State, step s = .next t →
    (t.i ≠ s.i → s.kwActive = false ∧
      ∃ x nnn, decode s.fetchedWord ∈ [some (.ldI nnn), some (.addI x), some (.ldF x)]) ∧
    (t.sp ≠ s.sp → s.kwActive = false ∧ ∃ nnn, decode s.fetchedWord ∈ [some (.call nnn), some .ret]) ∧
    (t.stack ≠ s.stack → s.kwActive = false ∧ ∃ nnn, decode s.fetchedWord = some (.call nnn)) ∧
    (t.dt ≠ s.dt → s.kwActive = false ∧ ∃ x, decode s.fetchedWord = some (.ldDt x)) ∧
    (t.st ≠ s.st → s.kwActive = false ∧ ∃ x, decode s.fetchedWord = some (.ldSt x))

/-- REDRAW over every host operation (R33): it is set by a step that runs CLS or DRW and by nothing else, and cleared by
consumeRedraw and reset and by nothing else. -/
def Obligations.RedrawFlag : Prop :=
  ∀ (op : HostOp) (s : State),
    (s.redraw = false → (hostOp op s).2.redraw = true → s.kwActive = false ∧ (∃ rnd, op = .step rnd) ∧
      ∃ i, decode s.fetchedWord = some i ∧ writesDisplay i = true) ∧
    (s.redraw = true → (hostOp op s).2.redraw = false → op = .consumeRedraw ∨ op = .reset) ∧
    (∀ (i : Instr) (t : State), exec i s = .next t → writesDisplay i = true → t.redraw = true) ∧
    (hostOp .consumeRedraw s).2.redraw = false ∧ (hostOp .reset s).2.redraw = false

/-- The display is not read by an instruction other than DXYN and not written other than by 00E0, DXYN and reset (R144):
changing the display changes nothing else an instruction does, and leaves its own change standing. -/
def Obligations.DisplayIsolation : Prop :=
  (∀ (i : Instr) (s : State) (fb : BitVec 2048), writesDisplay i = false →
    exec i { s with fb := fb } =
      match exec i s with
      | .next t => .next { t with fb := fb }
      | .fault f => .fault f
      | .refused r => .refused r) ∧
  (∀ (s : State) (fb : BitVec 2048), exec .cls { s with fb := fb } = exec .cls s) ∧
  (∀ (op : HostOp) (s : State), (hostOp op s).2.fb ≠ s.fb →
    op = .reset ∨ (s.kwActive = false ∧ (∃ rnd, op = .step rnd) ∧
      ∃ i, decode s.fetchedWord = some i ∧ writesDisplay i = true))

/-- The keyboard latch over every host operation: setKey writes its one entry and nothing else (R306), no other operation
but reset writes it. That reset leaves every key released is the spec's own decision D20 (log entry 16). -/
def Obligations.KeyboardLatch : Prop :=
  (∀ (op : HostOp) (s : State) (k : Nib),
    (hostOp op s).2.keyDown k =
      match op with
      | .reset => false
      | .setKey index pressed => if k = index then pressed else s.keyDown k
      | .load _ | .step _ | .tick | .getDisplay | .consumeRedraw | .soundTimer | .dump => s.keyDown k) ∧
  ∀ (index : Nib) (pressed : Bool) (s : State),
    ∃ t, hostOp (.setKey index pressed) s = (.noOutput, t) ∧ t = { s with key := t.key } ∧ s.sameBytes t

/-- The two modes and the moves between them, over every host operation (R132): the key wait is entered only by a step
that executes FX0A with no key pressed, and left only by a step that finds a pressed key or by reset. -/
def Obligations.Modes : Prop :=
  ∀ (op : HostOp) (s : State),
    (s.kwActive = false → (hostOp op s).2.kwActive = true →
      (∃ rnd, op = .step rnd) ∧ (∀ k, s.keyDown k = false) ∧
        ∃ x, decode s.fetchedWord = some (.ldVxK x) ∧ (hostOp op s).2.kwReg = x) ∧
    (s.kwActive = true → (hostOp op s).2.kwActive = false →
      op = .reset ∨ ((∃ rnd, op = .step rnd) ∧ ∃ k, s.keyDown k = true))

/-- The program counter table (R126): how each cycle changes PC, a raised condition included. -/
def Obligations.ProgramCounterTable : Prop :=
  ∀ (rnd : Byte) (s : State),
    (∀ t, step s = .next t → t.pc.toNat =
      (if s.kwActive = true then (if ∃ k, s.keyDown k = true then s.pc.toNat + 2 else s.pc.toNat)
       else match decode s.fetchedWord with
        | some i => pcAfter i s
        | none => s.pc.toNat + 2) % 65536) ∧
    (∀ f, step s = .fault f → (hostOp (.step rnd) s).2.pc = s.pc)

/-- The conditions of a step and their priority (R281, R290): a step ends in a condition exactly when it is not waiting
and the fetch is stopped, or the fetched instruction meets its own condition; otherwise it answers a next state
(decisions D4, D5, D6 and D23; log entries 2, 11 and 12). -/
def Obligations.ConditionsExactly : Prop :=
  ∀ (s : State) (f : Fault),
    step s = .fault f ↔ s.kwActive = false ∧
      (s.fetchFault = some f ∨
        (s.fetchFault = none ∧ ∃ i, decode s.fetchedWord = some i ∧ executeFault i s = some f))

/-- A fatal condition changes nothing (R131; decision D18, log entry 7): after a host step that ends in one, only the
model's report, mark and consumed input differ, and the next step ends in the same condition. -/
def Obligations.FatalChangesNothing : Prop :=
  ∀ (rnd rnd' : Byte) (s : State) (f : Fault), (hostOp (.step rnd) s).1 = .result (.fatal f) →
    (hostOp (.step rnd) s).2 = { s with result := some (.fatal f), faulted := true, rndIn := none } ∧
      (hostOp (.step rnd') (hostOp (.step rnd) s).2).1 = .result (.fatal f)

/-- The cycle that runs depends on no draw but through RND and the choice among keys: with the default
KEY_WAIT_SELECT and no RND fetched, changing the draw counter and the supplied byte changes nothing else a step does
(R120, R211: rnd is read only by CXNN). -/
def Obligations.DrawReadOnlyByRnd : Prop :=
  ∀ (s : State) (rndIn : Option Byte) (draws : Nat), s.params.keySelect = .lowest →
    (∀ x nn, decode s.fetchedWord ≠ some (.rnd x nn)) →
    step { s with rndIn := rndIn, draws := draws } =
      match step s with
      | .next t => .next { t with rndIn := rndIn, draws := draws }
      | .fault f => .fault f
      | .refused r => .refused r

/-! Invariants -/

/-- Reset leaves the values of R42: every register, the stack, the display, the timers and the keys 0, PC = 0x200, the
FONT at 0x000 to 0x04F and 0 in the rest of memory (I, REDRAW, KEY, KW and IR by decision D20, log entry 16). It depends on
nothing before it but the engine's parameters and the free draws taken (R331). -/
def Obligations.ResetState : Prop :=
  ∀ s : State,
    (∀ r, s.doReset.getV r = 0x00#8) ∧ s.doReset.pc = 0x200#16 ∧ s.doReset.i = 0x0000#16 ∧ s.doReset.sp.val = 0 ∧
    (∀ (j : Nat) (hj : j < 16), s.doReset.stack[j] = 0x0000#16) ∧ (∀ p, s.doReset.fb.getLsbD p = false) ∧
    s.doReset.redraw = false ∧ s.doReset.dt = 0x00#8 ∧ s.doReset.st = 0x00#8 ∧ (∀ k, s.doReset.keyDown k = false) ∧
    s.doReset.kwActive = false ∧ s.doReset.kwReg = 0x0#4 ∧ s.doReset.ir = 0x0000#16 ∧
    (∀ (a : Nat) (ha : a < 80), s.doReset.readByte a = s.params.font[a]) ∧
    (∀ a, 80 ≤ a → s.doReset.readByte a = 0x00#8) ∧ State.reset.doReset = State.reset ∧
    (∀ t : State, s.params = t.params → s.draws = t.draws → (hostOp .reset s).2 = (hostOp .reset t).2)

/-- The invariant holds at reset, under every value of the parameters (log entry 10 for the canonical form). -/
def Obligations.ResetInv : Prop :=
  State.reset.inv ∧ ∀ (params : Config.Params) (draws : Nat), (State.resetWith params draws).inv

/-- Tier 3. Every step from every state that meets the invariant leaves one that meets it: memory stays in canonical
form within 0x000 to 0xFFF, and a key wait keeps its FX0A word latched and its status reported. -/
def Obligations.StepKeepsInv : Prop :=
  ∀ s t : State, s.inv → step s = .next t → t.inv

/-- Tier 3. Every host operation keeps the invariant, so that every state of a run (R133) meets it, whatever the
parameters, the ROM and the host's moves; and no operation changes the parameters. -/
def Obligations.HostOpKeepsInv : Prop :=
  (∀ (op : HostOp) (s : State), s.inv → (hostOp op s).2.inv ∧ (hostOp op s).2.params = s.params) ∧
  (∀ (params : Config.Params) (rom : List Byte) (ops : List HostOp), (State.reachedBy params rom ops).inv)

/-! Host operations -/

/-- Tick (R302): each timer down by 1, floored at 0, in every mode, and nothing else (decision D31, log entry 18). -/
def Obligations.Tick : Prop :=
  ∀ s : State, ∃ t, hostOp .tick s = (.noOutput, t) ∧ t.dt.toNat = s.dt.toNat - 1 ∧ t.st.toNat = s.st.toNat - 1 ∧
    t = { s with dt := t.dt, st := t.st } ∧ s.sameBytes t

/-- consumeRedraw reads and clears the flag in one operation (R304). -/
def Obligations.ConsumeRedraw : Prop :=
  ∀ s : State, hostOp .consumeRedraw s = (.redraw s.redraw, { s with redraw := false })

/-- getDisplay, soundTimer and dump read and change nothing (R303, R305, R307; dump's contents are decision D32, log
entry 18). -/
def Obligations.ReadOnlyOperations : Prop :=
  ∀ s : State,
    (∃ fb, hostOp .getDisplay s = (.display fb, s) ∧ ∀ p, fb.getLsbD p = s.fb.getLsbD p) ∧
    hostOp .soundTimer s = (.sound s.st, s) ∧ (s.tone = true ↔ s.st ≠ 0x00#8) ∧
    (∃ d, hostOp .dump s = (.snapshot d, s) ∧ d.v = s.v ∧ d.pc = s.pc ∧ d.sp = s.sp ∧ d.i = s.i ∧ d.dt = s.dt ∧
      d.st = s.st ∧ d.key = s.key)

/-- Load (R332, R333): a ROM that fits stands at 0x200 on, every other byte and all other state as before; one that does
not fit writes nothing (decision D19, log entry 18). -/
def Obligations.LoadRom : Prop :=
  ∀ (rom : List Byte) (s : State),
    (0x200 + rom.length ≤ 0x1000 → ∃ t, hostOp (.load rom) s = (.loaded, t) ∧
      (∀ (j : Nat) (hj : j < rom.length), t.readByte (0x200 + j) = rom[j]) ∧
      (∀ a, (a < 0x200 ∨ 0x200 + rom.length ≤ a) → t.readByte a = s.readByte a) ∧ t = { s with mem := t.mem }) ∧
    (0x1000 < 0x200 + rom.length → hostOp (.load rom) s = (.outOfRange, s))

/-- An idle state stays where it is (R133; decision D27, log entry 21): the step returns Ok(0), changes nothing but IR
and the report, and leaves an idle state. -/
def Obligations.IdleStaysIdle : Prop :=
  ∀ s : State, s.idle →
    ∃ t, step s = .next t ∧ t.result = some (.ok false) ∧ t = { s with ir := t.ir, result := t.result } ∧ t.idle

/-- The end of a run (R133; decision D27, log entry 21). Where a run ends, the mark says so too and no state up to there
is faulted; a run that faults never ends after that; and while the host does not reset, which starts a new run (R289),
a run ends exactly at the first state that is idle and not marked faulted. -/
def Obligations.RunEnd : Prop :=
  ∀ (params : Config.Params) (rom : List Byte) (ops : List HostOp),
    (∀ n, endsAt params rom ops n →
      (runState params rom ops n).ended ∧ ∀ m, m ≤ n → (runState params rom ops m).faulted = false) ∧
    (∀ k n, faultsAt params rom ops k → endsAt params rom ops n → n ≤ k) ∧
    (HostOp.reset ∉ ops → ∀ n, endsAt params rom ops n ↔
      n ≤ ops.length ∧ (runState params rom ops n).ended ∧ ∀ m, m < n → ¬(runState params rom ops m).ended)
end

