-- ==== Sys2Proof/Laws/Decode.lean ====
section
/-! SUPPORT. The fields of a word as numbers, the words the encoder packs, and the fields read back from them. -/

namespace Sys2Proof

/-! A field is the word divided and reduced -/

theorem fieldOp_toNat (w : Word) : (fieldOp w).toNat = w.toNat / 4096 % 16 := by
  simp [fieldOp, Nat.shiftRight_eq_div_pow]

theorem fieldX_toNat (w : Word) : (fieldX w).toNat = w.toNat / 256 % 16 := by
  simp [fieldX, Nat.shiftRight_eq_div_pow]

theorem fieldY_toNat (w : Word) : (fieldY w).toNat = w.toNat / 16 % 16 := by
  simp [fieldY, Nat.shiftRight_eq_div_pow]

theorem fieldN_toNat (w : Word) : (fieldN w).toNat = w.toNat % 16 := by
  simp [fieldN]

theorem fieldNN_toNat (w : Word) : (fieldNN w).toNat = w.toNat % 256 := by
  simp [fieldNN]

theorem fieldNNN_toNat (w : Word) : (fieldNNN w).toNat = w.toNat % 4096 := by
  simp [fieldNNN]

/-! A packed word is the sum of its shifted fields -/

/-- Concatenation with the second operand in the low bits (R13). -/
theorem append_toNat {m n : Nat} (a : BitVec m) (b : BitVec n) : (a ++ b).toNat = a.toNat * 2 ^ n + b.toNat := by
  rw [BitVec.toNat_append, ← Nat.shiftLeft_add_eq_or_of_lt b.isLt, Nat.shiftLeft_eq]

/-- Format A (R92). -/
theorem packA_toNat (a : Nib) (b : Imm12) : BitVec.toNat (w := 16) (a ++ b) = a.toNat * 4096 + b.toNat :=
  append_toNat a b

/-- Formats XK and XS (R92). -/
theorem packXK_toNat (a b : Nib) (c : Byte) :
    BitVec.toNat (w := 16) (a ++ b ++ c) = a.toNat * 4096 + b.toNat * 256 + c.toNat := by
  have h : BitVec.toNat (w := 16) (a ++ b ++ c) = (a ++ b).toNat * 2 ^ 8 + c.toNat := append_toNat (a ++ b) c
  rw [h, append_toNat]
  omega

/-- Formats XY and XYN (R92). -/
theorem packXYN_toNat (a b c d : Nib) :
    BitVec.toNat (w := 16) (a ++ b ++ c ++ d) = a.toNat * 4096 + b.toNat * 256 + c.toNat * 16 + d.toNat := by
  have h : BitVec.toNat (w := 16) (a ++ b ++ c ++ d) = (a ++ b ++ c).toNat * 2 ^ 4 + d.toNat :=
    append_toNat (a ++ b ++ c) d
  rw [h, append_toNat, append_toNat]
  omega

/-! The fields read back -/

@[simp] theorem fieldOp_packA (a : Nib) (b : Imm12) : fieldOp (a ++ b) = a := by
  apply BitVec.eq_of_toNat_eq
  rw [fieldOp_toNat, packA_toNat]
  omega

@[simp] theorem fieldNNN_packA (a : Nib) (b : Imm12) : fieldNNN (a ++ b) = b := by
  apply BitVec.eq_of_toNat_eq
  rw [fieldNNN_toNat, packA_toNat]
  omega

@[simp] theorem fieldOp_packXK (a b : Nib) (c : Byte) : fieldOp (a ++ b ++ c) = a := by
  apply BitVec.eq_of_toNat_eq
  rw [fieldOp_toNat, packXK_toNat]
  omega

@[simp] theorem fieldX_packXK (a b : Nib) (c : Byte) : fieldX (a ++ b ++ c) = b := by
  apply BitVec.eq_of_toNat_eq
  rw [fieldX_toNat, packXK_toNat]
  omega

@[simp] theorem fieldNN_packXK (a b : Nib) (c : Byte) : fieldNN (a ++ b ++ c) = c := by
  apply BitVec.eq_of_toNat_eq
  rw [fieldNN_toNat, packXK_toNat]
  omega

@[simp] theorem fieldOp_packXYN (a b c d : Nib) : fieldOp (a ++ b ++ c ++ d) = a := by
  apply BitVec.eq_of_toNat_eq
  rw [fieldOp_toNat, packXYN_toNat]
  omega

@[simp] theorem fieldX_packXYN (a b c d : Nib) : fieldX (a ++ b ++ c ++ d) = b := by
  apply BitVec.eq_of_toNat_eq
  rw [fieldX_toNat, packXYN_toNat]
  omega

@[simp] theorem fieldY_packXYN (a b c d : Nib) : fieldY (a ++ b ++ c ++ d) = c := by
  apply BitVec.eq_of_toNat_eq
  rw [fieldY_toNat, packXYN_toNat]
  omega

@[simp] theorem fieldN_packXYN (a b c d : Nib) : fieldN (a ++ b ++ c ++ d) = d := by
  apply BitVec.eq_of_toNat_eq
  rw [fieldN_toNat, packXYN_toNat]
  omega

/-- An OR of a word whose low `k` bits are 0 and a word below 2^k is their sum. -/
theorem Laws.or_toNat_of_low {hi lo : Word} (k : Nat) (h1 : hi.toNat % 2 ^ k = 0) (h2 : lo.toNat < 2 ^ k) :
    (hi ||| lo).toNat = hi.toNat + lo.toNat := by
  have hd : hi.toNat = (hi.toNat / 2 ^ k) <<< k := by
    rw [Nat.shiftLeft_eq]
    have := Nat.div_add_mod hi.toNat (2 ^ k)
    rw [h1, Nat.mul_comm] at this
    omega
  rw [BitVec.toNat_or, hd, ← Nat.shiftLeft_add_eq_or_of_lt h2]

/-! The masks of R100 as numbers -/

theorem maskAll (w : Word) : w &&& 0xFFFF#16 = w :=
  BitVec.and_allOnes

theorem maskHigh_toNat (w : Word) : (w &&& 0xF000#16).toNat = w.toNat / 4096 * 4096 := by
  have h : w &&& 0xF000#16 = (w >>> 12) <<< 12 := by
    ext k hk
    by_cases h : k < 12
    · have e : BitVec.getLsbD 0xF000#16 k = false := by
        have : ∀ k : Fin 12, BitVec.getLsbD 0xF000#16 k.val = false := by decide
        exact this ⟨k, h⟩
      simp_all
    · have e : BitVec.getLsbD 0xF000#16 k = true := by
        have : ∀ k : Fin 4, BitVec.getLsbD 0xF000#16 (12 + k.val) = true := by decide
        have e := this ⟨k - 12, by omega⟩
        simpa [Nat.add_sub_cancel' (Nat.le_of_not_lt h)] using e
      have hs : 12 + (k - 12) = k := by omega
      simp_all
  rw [h]
  have := w.isLt
  simp [Nat.shiftRight_eq_div_pow, Nat.shiftLeft_eq]
  omega

theorem maskHighNibble_toNat (w : Word) : (w &&& 0xF00F#16).toNat = w.toNat / 4096 * 4096 + w.toNat % 16 := by
  have h : w &&& 0xF00F#16 = (w &&& 0xF000#16) ||| (w &&& 0x000F#16) := by
    rw [← BitVec.and_or_distrib_left]
    rfl
  have e : (w &&& 0x000F#16).toNat = w.toNat % 16 := by
    rw [BitVec.toNat_and]
    exact Nat.and_two_pow_sub_one_eq_mod w.toNat 4
  rw [h, Laws.or_toNat_of_low 12 (by rw [maskHigh_toNat]; omega) (by rw [e]; omega), maskHigh_toNat, e]

theorem maskHighByte_toNat (w : Word) : (w &&& 0xF0FF#16).toNat = w.toNat / 4096 * 4096 + w.toNat % 256 := by
  have h : w &&& 0xF0FF#16 = (w &&& 0xF000#16) ||| (w &&& 0x00FF#16) := by
    rw [← BitVec.and_or_distrib_left]
    rfl
  have e : (w &&& 0x00FF#16).toNat = w.toNat % 256 := by
    rw [BitVec.toNat_and]
    exact Nat.and_two_pow_sub_one_eq_mod w.toNat 8
  rw [h, Laws.or_toNat_of_low 12 (by rw [maskHigh_toNat]; omega) (by rw [e]; omega), maskHigh_toNat, e]

/-! Bytes and words -/

theorem wordOfBytes_toNat (hi lo : Byte) : (wordOfBytes hi lo).toNat = hi.toNat * 256 + lo.toNat :=
  append_toNat hi lo

/-- The two bytes of a word, read back big-endian, are the word (R62). -/
theorem wordOfBytes_bytesOfWord (w : Word) : wordOfBytes (w.extractLsb' 8 8) (w.extractLsb' 0 8) = w := by
  apply BitVec.eq_of_toNat_eq
  rw [wordOfBytes_toNat]
  simp [Nat.shiftRight_eq_div_pow]
  omega

/-- The decoder on bytes is the decoder on the word they make. -/
theorem decodeBytes_cons (hi lo : Byte) (rest : List Byte) :
    decodeBytes (hi :: lo :: rest) = (decodeWord (wordOfBytes hi lo)).map (·, rest) := by
  simp only [decodeBytes]
  cases decodeWord (wordOfBytes hi lo) <;> rfl

/-- `decode` answers an instruction exactly when the decoder does not reject the word. -/
theorem decode_eq_some {w : Word} {i : Instr} : decode w = some i ↔ decodeWord w = .ok i := by
  unfold decode
  cases h : decodeWord w <;> simp

theorem decode_eq_none {w : Word} : decode w = none ↔ ∃ e, decodeWord w = .error e := by
  unfold decode
  cases h : decodeWord w <;> simp

end Sys2Proof
end

