-- ==== Sys2Proof/Laws/Memory.lean ====
section
/-! SUPPORT. The laws of memory: a read after a write, and that a write keeps the canonical form. None of the read
laws needs the canonical form. -/

namespace Sys2Proof.Machine

theorem Memory.read_erase_same (base : Nat → Byte) (m : List Host.Cell) (a : Nat) :
    Memory.read base (Memory.erase m a) a = base a := by
  induction m with
  | nil => rfl
  | cons c rest ih =>
    obtain ⟨b, v⟩ := c
    by_cases h : b = a <;> simp [Memory.erase, Memory.read, h, ih]

theorem Memory.read_erase_other (base : Nat → Byte) (m : List Host.Cell) {a b : Nat} (h : b ≠ a) :
    Memory.read base (Memory.erase m a) b = Memory.read base m b := by
  induction m with
  | nil => rfl
  | cons c rest ih =>
    obtain ⟨d, v⟩ := c
    by_cases hd : d = a
    · have hb : d ≠ b := fun e => h (e ▸ hd)
      simp [Memory.erase, Memory.read, hd, ih, Ne.symm h]
    · by_cases hb : d = b <;> simp [Memory.erase, Memory.read, hd, hb, ih, h]

/-- The list holds no cell at the address. -/
theorem Memory.erase_absent (m : List Host.Cell) (a : Nat) : ∀ c ∈ Memory.erase m a, c.1 ≠ a := by
  induction m with
  | nil => simp [Memory.erase]
  | cons c rest ih =>
    obtain ⟨b, v⟩ := c
    by_cases h : b = a
    · simpa [Memory.erase, h] using ih
    · intro c hc
      simp only [Memory.erase, h, if_false, List.mem_cons] at hc
      rcases hc with rfl | hc
      · exact h
      · exact ih c hc

theorem Memory.read_insert_other (base : Nat → Byte) (m : List Host.Cell) {a b : Nat} (v : Byte) (h : b ≠ a) :
    Memory.read base (Memory.insert m a v) b = Memory.read base m b := by
  induction m with
  | nil => simp [Memory.insert, Memory.read, Ne.symm h]
  | cons c rest ih =>
    obtain ⟨d, u⟩ := c
    by_cases hd : a < d
    · simp [Memory.insert, Memory.read, hd, Ne.symm h]
    · by_cases hb : d = b
      · subst hb
        simp [Memory.insert, Memory.read, hd]
      · simp [Memory.insert, Memory.read, hd, hb, ih]

theorem Memory.read_insert_same (base : Nat → Byte) (m : List Host.Cell) (a : Nat) (v : Byte)
    (h : ∀ c ∈ m, c.1 ≠ a) : Memory.read base (Memory.insert m a v) a = v := by
  induction m with
  | nil => simp [Memory.insert, Memory.read]
  | cons c rest ih =>
    obtain ⟨d, u⟩ := c
    have hd : d ≠ a := h (d, u) (by simp)
    by_cases hlt : a < d
    · simp [Memory.insert, Memory.read, hlt]
    · simp [Memory.insert, Memory.read, hlt, hd, ih fun c hc => h c (by simp [hc])]

/-- A read after a write to the same address gives the byte written. -/
theorem Memory.read_write_same (base : Nat → Byte) (m : List Host.Cell) (a : Nat) (v : Byte) :
    Memory.read base (Memory.write base m a v) a = v := by
  unfold Memory.write
  split
  · next h => rw [Memory.read_erase_same, h]
  · exact Memory.read_insert_same _ _ _ _ (Memory.erase_absent m a)

/-- A write leaves every other address alone. -/
theorem Memory.read_write_other (base : Nat → Byte) (m : List Host.Cell) {a b : Nat} (v : Byte) (h : b ≠ a) :
    Memory.read base (Memory.write base m a v) b = Memory.read base m b := by
  unfold Memory.write
  split
  · exact Memory.read_erase_other _ _ h
  · rw [Memory.read_insert_other _ _ _ h, Memory.read_erase_other _ _ h]

theorem Memory.allAbove_erase {lo : Nat} {m : List Host.Cell} (a : Nat) (h : Memory.allAbove lo m = true) :
    Memory.allAbove lo (Memory.erase m a) = true := by
  induction m with
  | nil => rfl
  | cons c rest ih =>
    obtain ⟨b, v⟩ := c
    simp only [Memory.allAbove, List.all_cons, Bool.and_eq_true] at h
    by_cases hb : b = a
    · simpa [Memory.erase, hb, Memory.allAbove] using ih h.2
    · simpa [Memory.erase, hb, Memory.allAbove] using ⟨by simpa using h.1, by simpa [Memory.allAbove] using ih h.2⟩

theorem Memory.allAbove_insert {lo : Nat} {m : List Host.Cell} {a : Nat} (v : Byte) (hlo : lo < a)
    (h : Memory.allAbove lo m = true) : Memory.allAbove lo (Memory.insert m a v) = true := by
  induction m with
  | nil => simpa [Memory.insert, Memory.allAbove] using hlo
  | cons c rest ih =>
    obtain ⟨b, u⟩ := c
    simp only [Memory.allAbove, List.all_cons, Bool.and_eq_true] at h
    by_cases hb : a < b
    · simpa [Memory.insert, hb, Memory.allAbove] using ⟨hlo, by simpa using h.1, by simpa using h.2⟩
    · simpa [Memory.insert, hb, Memory.allAbove] using ⟨by simpa using h.1, by simpa [Memory.allAbove] using ih h.2⟩

theorem Memory.allAbove_of_lt {a b : Nat} {m : List Host.Cell} (hab : a < b) (h : Memory.allAbove b m = true) :
    Memory.allAbove a m = true := by
  simp only [Memory.allAbove, List.all_eq_true, decide_eq_true_eq] at *
  exact fun c hc => Nat.lt_trans hab (h c hc)

theorem Memory.wf_cons {base : Nat → Byte} {a : Nat} {v : Byte} {rest : List Host.Cell} :
    Memory.wf base ((a, v) :: rest) = true ↔
      a < memSize ∧ v ≠ base a ∧ Memory.allAbove a rest = true ∧ Memory.wf base rest = true := by
  simp [Memory.wf, and_assoc]

theorem Memory.wf_erase {base : Nat → Byte} {m : List Host.Cell} (a : Nat) (h : Memory.wf base m = true) :
    Memory.wf base (Memory.erase m a) = true := by
  induction m with
  | nil => rfl
  | cons c rest ih =>
    obtain ⟨b, v⟩ := c
    obtain ⟨h1, h2, h3, h4⟩ := Memory.wf_cons.mp h
    by_cases hb : b = a
    · simpa [Memory.erase, hb] using ih h4
    · simpa only [Memory.erase, hb, if_false] using
        Memory.wf_cons.mpr ⟨h1, h2, Memory.allAbove_erase a h3, ih h4⟩

theorem Memory.wf_insert {base : Nat → Byte} {m : List Host.Cell} {a : Nat} {v : Byte} (ha : a < memSize)
    (hv : v ≠ base a) (habs : ∀ c ∈ m, c.1 ≠ a) (h : Memory.wf base m = true) :
    Memory.wf base (Memory.insert m a v) = true := by
  induction m with
  | nil => exact Memory.wf_cons.mpr ⟨ha, hv, rfl, rfl⟩
  | cons c rest ih =>
    obtain ⟨b, u⟩ := c
    obtain ⟨h1, h2, h3, h4⟩ := Memory.wf_cons.mp h
    by_cases hb : a < b
    · simp only [Memory.insert, hb, if_true]
      refine Memory.wf_cons.mpr ⟨ha, hv, ?_, h⟩
      simpa [Memory.allAbove] using ⟨hb, by simpa [Memory.allAbove] using Memory.allAbove_of_lt hb h3⟩
    · have hba : b < a := by
        have := habs (b, u) (by simp)
        simp only at this
        omega
      simp only [Memory.insert, hb, if_false]
      exact Memory.wf_cons.mpr ⟨h1, h2, Memory.allAbove_insert v hba h3, ih (fun c hc => habs c (by simp [hc])) h4⟩

/-- A write of an existing address keeps the canonical form. -/
theorem Memory.wf_write {base : Nat → Byte} {m : List Host.Cell} {a : Nat} (v : Byte) (ha : a < memSize)
    (h : Memory.wf base m = true) : Memory.wf base (Memory.write base m a v) = true := by
  unfold Memory.write
  split
  · exact Memory.wf_erase a h
  · next hv => exact Memory.wf_insert ha hv (Memory.erase_absent m a) (Memory.wf_erase a h)

/-- Reset memory, which lists nothing, is in canonical form. -/
theorem Memory.wf_nil (base : Nat → Byte) : Memory.wf base [] = true := rfl

/-- Every listed address of a memory in canonical form exists. -/
theorem Memory.wf_mem_lt {base : Nat → Byte} {m : List Host.Cell} (h : Memory.wf base m = true) :
    ∀ c ∈ m, c.1 < memSize := by
  induction m with
  | nil => simp
  | cons c rest ih =>
    obtain ⟨b, v⟩ := c
    obtain ⟨h1, -, -, h4⟩ := Memory.wf_cons.mp h
    intro c hc
    rcases List.mem_cons.mp hc with rfl | hc
    · exact h1
    · exact ih h4 c hc

/-- Two memories in canonical form that read alike at every address are equal as data. -/
theorem Memory.eq_of_read_eq {base : Nat → Byte} {m m' : List Host.Cell} (h : Memory.wf base m = true)
    (h' : Memory.wf base m' = true) (heq : ∀ a, Memory.read base m a = Memory.read base m' a) : m = m' := by
  have absent : ∀ (m : List Host.Cell) (a : Nat), Memory.allAbove a m = true → Memory.read base m a = base a := by
    intro m a ha
    induction m with
    | nil => rfl
    | cons c rest ih =>
      obtain ⟨b, v⟩ := c
      simp only [Memory.allAbove, List.all_cons, Bool.and_eq_true, decide_eq_true_eq] at ha
      have : b ≠ a := by omega
      simp only [Memory.read, this, if_false]
      exact ih ha.2
  induction m generalizing m' with
  | nil =>
    cases m' with
    | nil => rfl
    | cons c rest =>
      obtain ⟨b, v⟩ := c
      have := heq b
      simp only [Memory.read, if_true] at this
      exact absurd this.symm (Memory.wf_cons.mp h').2.1
  | cons c rest ih =>
    obtain ⟨a, v⟩ := c
    obtain ⟨-, hv, ha, hr⟩ := Memory.wf_cons.mp h
    cases m' with
    | nil =>
      have := heq a
      simp only [Memory.read, if_true] at this
      exact absurd this hv
    | cons c' rest' =>
      obtain ⟨b, u⟩ := c'
      obtain ⟨-, hu, hb, hr'⟩ := Memory.wf_cons.mp h'
      have hab : a = b := by
        rcases Nat.lt_trichotomy a b with hlt | heq' | hgt
        · have e := heq a
          rw [absent ((b, u) :: rest') a (by
            simpa [Memory.allAbove] using ⟨hlt, by simpa [Memory.allAbove] using Memory.allAbove_of_lt hlt hb⟩)] at e
          simp only [Memory.read, if_true] at e
          exact absurd e hv
        · exact heq'
        · have e := heq b
          rw [absent ((a, v) :: rest) b (by
            simpa [Memory.allAbove] using ⟨hgt, by simpa [Memory.allAbove] using Memory.allAbove_of_lt hgt ha⟩)] at e
          simp only [Memory.read, if_true] at e
          exact absurd e.symm hu
      subst hab
      have huv : v = u := by simpa [Memory.read] using heq a
      subst huv
      have : rest = rest' := by
        refine ih hr hr' fun d => ?_
        by_cases hd : a = d
        · subst hd; rw [absent rest a ha, absent rest' a hb]
        · simpa [Memory.read, hd] using heq d
      rw [this]

end Sys2Proof.Machine
end

