-- ==== Sys2Proof/Laws/State.lean ====
section
/-! SUPPORT. What each update of the state does to each field, and to what is read through the accessors. -/

namespace Sys2Proof.Machine

@[simp] theorem State.setV_mem (s : State) (x : Nib) (b : Byte) : (s.setV x b).mem = s.mem := rfl
@[simp] theorem State.setV_v (s : State) (x : Nib) (b : Byte) : (s.setV x b).v = s.v.set x.toNat b x.isLt := rfl
@[simp] theorem State.setV_pc (s : State) (x : Nib) (b : Byte) : (s.setV x b).pc = s.pc := rfl
@[simp] theorem State.setV_i (s : State) (x : Nib) (b : Byte) : (s.setV x b).i = s.i := rfl
@[simp] theorem State.setV_sp (s : State) (x : Nib) (b : Byte) : (s.setV x b).sp = s.sp := rfl
@[simp] theorem State.setV_stack (s : State) (x : Nib) (b : Byte) : (s.setV x b).stack = s.stack := rfl
@[simp] theorem State.setV_fb (s : State) (x : Nib) (b : Byte) : (s.setV x b).fb = s.fb := rfl
@[simp] theorem State.setV_redraw (s : State) (x : Nib) (b : Byte) : (s.setV x b).redraw = s.redraw := rfl
@[simp] theorem State.setV_dt (s : State) (x : Nib) (b : Byte) : (s.setV x b).dt = s.dt := rfl
@[simp] theorem State.setV_st (s : State) (x : Nib) (b : Byte) : (s.setV x b).st = s.st := rfl
@[simp] theorem State.setV_key (s : State) (x : Nib) (b : Byte) : (s.setV x b).key = s.key := rfl
@[simp] theorem State.setV_kwActive (s : State) (x : Nib) (b : Byte) : (s.setV x b).kwActive = s.kwActive := rfl
@[simp] theorem State.setV_kwReg (s : State) (x : Nib) (b : Byte) : (s.setV x b).kwReg = s.kwReg := rfl
@[simp] theorem State.setV_ir (s : State) (x : Nib) (b : Byte) : (s.setV x b).ir = s.ir := rfl
@[simp] theorem State.setV_result (s : State) (x : Nib) (b : Byte) : (s.setV x b).result = s.result := rfl
@[simp] theorem State.setV_faulted (s : State) (x : Nib) (b : Byte) : (s.setV x b).faulted = s.faulted := rfl
@[simp] theorem State.setV_unknownSeen (s : State) (x : Nib) (b : Byte) : (s.setV x b).unknownSeen = s.unknownSeen := rfl
@[simp] theorem State.setV_rndIn (s : State) (x : Nib) (b : Byte) : (s.setV x b).rndIn = s.rndIn := rfl
@[simp] theorem State.setV_draws (s : State) (x : Nib) (b : Byte) : (s.setV x b).draws = s.draws := rfl
@[simp] theorem State.setV_params (s : State) (x : Nib) (b : Byte) : (s.setV x b).params = s.params := rfl
@[simp] theorem State.base_setV (s : State) (x : Nib) (b : Byte) : (s.setV x b).base = s.base := rfl
@[simp] theorem State.keyDown_setV (s : State) (x : Nib) (b : Byte) (k : Nib) : (s.setV x b).keyDown k = s.keyDown k := rfl
@[simp] theorem State.readByte_setV (s : State) (x : Nib) (b : Byte) (k : Nat) : (s.setV x b).readByte k = s.readByte k := rfl

@[simp] theorem State.setPc_mem (s : State) (target : Word) : (s.setPc target).mem = s.mem := rfl
@[simp] theorem State.setPc_v (s : State) (target : Word) : (s.setPc target).v = s.v := rfl
@[simp] theorem State.setPc_pc (s : State) (target : Word) : (s.setPc target).pc = target := rfl
@[simp] theorem State.setPc_i (s : State) (target : Word) : (s.setPc target).i = s.i := rfl
@[simp] theorem State.setPc_sp (s : State) (target : Word) : (s.setPc target).sp = s.sp := rfl
@[simp] theorem State.setPc_stack (s : State) (target : Word) : (s.setPc target).stack = s.stack := rfl
@[simp] theorem State.setPc_fb (s : State) (target : Word) : (s.setPc target).fb = s.fb := rfl
@[simp] theorem State.setPc_redraw (s : State) (target : Word) : (s.setPc target).redraw = s.redraw := rfl
@[simp] theorem State.setPc_dt (s : State) (target : Word) : (s.setPc target).dt = s.dt := rfl
@[simp] theorem State.setPc_st (s : State) (target : Word) : (s.setPc target).st = s.st := rfl
@[simp] theorem State.setPc_key (s : State) (target : Word) : (s.setPc target).key = s.key := rfl
@[simp] theorem State.setPc_kwActive (s : State) (target : Word) : (s.setPc target).kwActive = s.kwActive := rfl
@[simp] theorem State.setPc_kwReg (s : State) (target : Word) : (s.setPc target).kwReg = s.kwReg := rfl
@[simp] theorem State.setPc_ir (s : State) (target : Word) : (s.setPc target).ir = s.ir := rfl
@[simp] theorem State.setPc_result (s : State) (target : Word) : (s.setPc target).result = s.result := rfl
@[simp] theorem State.setPc_faulted (s : State) (target : Word) : (s.setPc target).faulted = s.faulted := rfl
@[simp] theorem State.setPc_unknownSeen (s : State) (target : Word) : (s.setPc target).unknownSeen = s.unknownSeen := rfl
@[simp] theorem State.setPc_rndIn (s : State) (target : Word) : (s.setPc target).rndIn = s.rndIn := rfl
@[simp] theorem State.setPc_draws (s : State) (target : Word) : (s.setPc target).draws = s.draws := rfl
@[simp] theorem State.setPc_params (s : State) (target : Word) : (s.setPc target).params = s.params := rfl
@[simp] theorem State.base_setPc (s : State) (target : Word) : (s.setPc target).base = s.base := rfl
@[simp] theorem State.keyDown_setPc (s : State) (target : Word) (k : Nib) : (s.setPc target).keyDown k = s.keyDown k := rfl
@[simp] theorem State.getV_setPc (s : State) (target : Word) (y : Nib) : (s.setPc target).getV y = s.getV y := rfl
@[simp] theorem State.readByte_setPc (s : State) (target : Word) (k : Nat) : (s.setPc target).readByte k = s.readByte k := rfl

@[simp] theorem State.nextPc_mem (s : State) : (s.nextPc).mem = s.mem := rfl
@[simp] theorem State.nextPc_v (s : State) : (s.nextPc).v = s.v := rfl
@[simp] theorem State.nextPc_pc (s : State) : (s.nextPc).pc = s.pc + 2#16 := rfl
@[simp] theorem State.nextPc_i (s : State) : (s.nextPc).i = s.i := rfl
@[simp] theorem State.nextPc_sp (s : State) : (s.nextPc).sp = s.sp := rfl
@[simp] theorem State.nextPc_stack (s : State) : (s.nextPc).stack = s.stack := rfl
@[simp] theorem State.nextPc_fb (s : State) : (s.nextPc).fb = s.fb := rfl
@[simp] theorem State.nextPc_redraw (s : State) : (s.nextPc).redraw = s.redraw := rfl
@[simp] theorem State.nextPc_dt (s : State) : (s.nextPc).dt = s.dt := rfl
@[simp] theorem State.nextPc_st (s : State) : (s.nextPc).st = s.st := rfl
@[simp] theorem State.nextPc_key (s : State) : (s.nextPc).key = s.key := rfl
@[simp] theorem State.nextPc_kwActive (s : State) : (s.nextPc).kwActive = s.kwActive := rfl
@[simp] theorem State.nextPc_kwReg (s : State) : (s.nextPc).kwReg = s.kwReg := rfl
@[simp] theorem State.nextPc_ir (s : State) : (s.nextPc).ir = s.ir := rfl
@[simp] theorem State.nextPc_result (s : State) : (s.nextPc).result = s.result := rfl
@[simp] theorem State.nextPc_faulted (s : State) : (s.nextPc).faulted = s.faulted := rfl
@[simp] theorem State.nextPc_unknownSeen (s : State) : (s.nextPc).unknownSeen = s.unknownSeen := rfl
@[simp] theorem State.nextPc_rndIn (s : State) : (s.nextPc).rndIn = s.rndIn := rfl
@[simp] theorem State.nextPc_draws (s : State) : (s.nextPc).draws = s.draws := rfl
@[simp] theorem State.nextPc_params (s : State) : (s.nextPc).params = s.params := rfl
@[simp] theorem State.base_nextPc (s : State) : (s.nextPc).base = s.base := rfl
@[simp] theorem State.keyDown_nextPc (s : State) (k : Nib) : (s.nextPc).keyDown k = s.keyDown k := rfl
@[simp] theorem State.getV_nextPc (s : State) (y : Nib) : (s.nextPc).getV y = s.getV y := rfl
@[simp] theorem State.readByte_nextPc (s : State) (k : Nat) : (s.nextPc).readByte k = s.readByte k := rfl

@[simp] theorem State.skipIf_mem (s : State) (c : Bool) : (s.skipIf c).mem = s.mem := rfl
@[simp] theorem State.skipIf_v (s : State) (c : Bool) : (s.skipIf c).v = s.v := rfl
@[simp] theorem State.skipIf_pc (s : State) (c : Bool) : (s.skipIf c).pc = s.pc + (if c then 4#16 else 2#16) := rfl
@[simp] theorem State.skipIf_i (s : State) (c : Bool) : (s.skipIf c).i = s.i := rfl
@[simp] theorem State.skipIf_sp (s : State) (c : Bool) : (s.skipIf c).sp = s.sp := rfl
@[simp] theorem State.skipIf_stack (s : State) (c : Bool) : (s.skipIf c).stack = s.stack := rfl
@[simp] theorem State.skipIf_fb (s : State) (c : Bool) : (s.skipIf c).fb = s.fb := rfl
@[simp] theorem State.skipIf_redraw (s : State) (c : Bool) : (s.skipIf c).redraw = s.redraw := rfl
@[simp] theorem State.skipIf_dt (s : State) (c : Bool) : (s.skipIf c).dt = s.dt := rfl
@[simp] theorem State.skipIf_st (s : State) (c : Bool) : (s.skipIf c).st = s.st := rfl
@[simp] theorem State.skipIf_key (s : State) (c : Bool) : (s.skipIf c).key = s.key := rfl
@[simp] theorem State.skipIf_kwActive (s : State) (c : Bool) : (s.skipIf c).kwActive = s.kwActive := rfl
@[simp] theorem State.skipIf_kwReg (s : State) (c : Bool) : (s.skipIf c).kwReg = s.kwReg := rfl
@[simp] theorem State.skipIf_ir (s : State) (c : Bool) : (s.skipIf c).ir = s.ir := rfl
@[simp] theorem State.skipIf_result (s : State) (c : Bool) : (s.skipIf c).result = s.result := rfl
@[simp] theorem State.skipIf_faulted (s : State) (c : Bool) : (s.skipIf c).faulted = s.faulted := rfl
@[simp] theorem State.skipIf_unknownSeen (s : State) (c : Bool) : (s.skipIf c).unknownSeen = s.unknownSeen := rfl
@[simp] theorem State.skipIf_rndIn (s : State) (c : Bool) : (s.skipIf c).rndIn = s.rndIn := rfl
@[simp] theorem State.skipIf_draws (s : State) (c : Bool) : (s.skipIf c).draws = s.draws := rfl
@[simp] theorem State.skipIf_params (s : State) (c : Bool) : (s.skipIf c).params = s.params := rfl
@[simp] theorem State.base_skipIf (s : State) (c : Bool) : (s.skipIf c).base = s.base := rfl
@[simp] theorem State.keyDown_skipIf (s : State) (c : Bool) (k : Nib) : (s.skipIf c).keyDown k = s.keyDown k := rfl
@[simp] theorem State.getV_skipIf (s : State) (c : Bool) (y : Nib) : (s.skipIf c).getV y = s.getV y := rfl
@[simp] theorem State.readByte_skipIf (s : State) (c : Bool) (k : Nat) : (s.skipIf c).readByte k = s.readByte k := rfl

@[simp] theorem State.setI_mem (s : State) (w : Word) : (s.setI w).mem = s.mem := rfl
@[simp] theorem State.setI_v (s : State) (w : Word) : (s.setI w).v = s.v := rfl
@[simp] theorem State.setI_pc (s : State) (w : Word) : (s.setI w).pc = s.pc := rfl
@[simp] theorem State.setI_i (s : State) (w : Word) : (s.setI w).i = w := rfl
@[simp] theorem State.setI_sp (s : State) (w : Word) : (s.setI w).sp = s.sp := rfl
@[simp] theorem State.setI_stack (s : State) (w : Word) : (s.setI w).stack = s.stack := rfl
@[simp] theorem State.setI_fb (s : State) (w : Word) : (s.setI w).fb = s.fb := rfl
@[simp] theorem State.setI_redraw (s : State) (w : Word) : (s.setI w).redraw = s.redraw := rfl
@[simp] theorem State.setI_dt (s : State) (w : Word) : (s.setI w).dt = s.dt := rfl
@[simp] theorem State.setI_st (s : State) (w : Word) : (s.setI w).st = s.st := rfl
@[simp] theorem State.setI_key (s : State) (w : Word) : (s.setI w).key = s.key := rfl
@[simp] theorem State.setI_kwActive (s : State) (w : Word) : (s.setI w).kwActive = s.kwActive := rfl
@[simp] theorem State.setI_kwReg (s : State) (w : Word) : (s.setI w).kwReg = s.kwReg := rfl
@[simp] theorem State.setI_ir (s : State) (w : Word) : (s.setI w).ir = s.ir := rfl
@[simp] theorem State.setI_result (s : State) (w : Word) : (s.setI w).result = s.result := rfl
@[simp] theorem State.setI_faulted (s : State) (w : Word) : (s.setI w).faulted = s.faulted := rfl
@[simp] theorem State.setI_unknownSeen (s : State) (w : Word) : (s.setI w).unknownSeen = s.unknownSeen := rfl
@[simp] theorem State.setI_rndIn (s : State) (w : Word) : (s.setI w).rndIn = s.rndIn := rfl
@[simp] theorem State.setI_draws (s : State) (w : Word) : (s.setI w).draws = s.draws := rfl
@[simp] theorem State.setI_params (s : State) (w : Word) : (s.setI w).params = s.params := rfl
@[simp] theorem State.base_setI (s : State) (w : Word) : (s.setI w).base = s.base := rfl
@[simp] theorem State.keyDown_setI (s : State) (w : Word) (k : Nib) : (s.setI w).keyDown k = s.keyDown k := rfl
@[simp] theorem State.getV_setI (s : State) (w : Word) (y : Nib) : (s.setI w).getV y = s.getV y := rfl
@[simp] theorem State.readByte_setI (s : State) (w : Word) (k : Nat) : (s.setI w).readByte k = s.readByte k := rfl

@[simp] theorem State.latch_mem (s : State) (w : Word) : (s.latch w).mem = s.mem := rfl
@[simp] theorem State.latch_v (s : State) (w : Word) : (s.latch w).v = s.v := rfl
@[simp] theorem State.latch_pc (s : State) (w : Word) : (s.latch w).pc = s.pc := rfl
@[simp] theorem State.latch_i (s : State) (w : Word) : (s.latch w).i = s.i := rfl
@[simp] theorem State.latch_sp (s : State) (w : Word) : (s.latch w).sp = s.sp := rfl
@[simp] theorem State.latch_stack (s : State) (w : Word) : (s.latch w).stack = s.stack := rfl
@[simp] theorem State.latch_fb (s : State) (w : Word) : (s.latch w).fb = s.fb := rfl
@[simp] theorem State.latch_redraw (s : State) (w : Word) : (s.latch w).redraw = s.redraw := rfl
@[simp] theorem State.latch_dt (s : State) (w : Word) : (s.latch w).dt = s.dt := rfl
@[simp] theorem State.latch_st (s : State) (w : Word) : (s.latch w).st = s.st := rfl
@[simp] theorem State.latch_key (s : State) (w : Word) : (s.latch w).key = s.key := rfl
@[simp] theorem State.latch_kwActive (s : State) (w : Word) : (s.latch w).kwActive = s.kwActive := rfl
@[simp] theorem State.latch_kwReg (s : State) (w : Word) : (s.latch w).kwReg = s.kwReg := rfl
@[simp] theorem State.latch_ir (s : State) (w : Word) : (s.latch w).ir = w := rfl
@[simp] theorem State.latch_result (s : State) (w : Word) : (s.latch w).result = s.result := rfl
@[simp] theorem State.latch_faulted (s : State) (w : Word) : (s.latch w).faulted = s.faulted := rfl
@[simp] theorem State.latch_unknownSeen (s : State) (w : Word) : (s.latch w).unknownSeen = s.unknownSeen := rfl
@[simp] theorem State.latch_rndIn (s : State) (w : Word) : (s.latch w).rndIn = s.rndIn := rfl
@[simp] theorem State.latch_draws (s : State) (w : Word) : (s.latch w).draws = s.draws := rfl
@[simp] theorem State.latch_params (s : State) (w : Word) : (s.latch w).params = s.params := rfl
@[simp] theorem State.base_latch (s : State) (w : Word) : (s.latch w).base = s.base := rfl
@[simp] theorem State.keyDown_latch (s : State) (w : Word) (k : Nib) : (s.latch w).keyDown k = s.keyDown k := rfl
@[simp] theorem State.getV_latch (s : State) (w : Word) (y : Nib) : (s.latch w).getV y = s.getV y := rfl
@[simp] theorem State.readByte_latch (s : State) (w : Word) (k : Nat) : (s.latch w).readByte k = s.readByte k := rfl

@[simp] theorem State.report_mem (s : State) (r : Result) : (s.report r).mem = s.mem := rfl
@[simp] theorem State.report_v (s : State) (r : Result) : (s.report r).v = s.v := rfl
@[simp] theorem State.report_pc (s : State) (r : Result) : (s.report r).pc = s.pc := rfl
@[simp] theorem State.report_i (s : State) (r : Result) : (s.report r).i = s.i := rfl
@[simp] theorem State.report_sp (s : State) (r : Result) : (s.report r).sp = s.sp := rfl
@[simp] theorem State.report_stack (s : State) (r : Result) : (s.report r).stack = s.stack := rfl
@[simp] theorem State.report_fb (s : State) (r : Result) : (s.report r).fb = s.fb := rfl
@[simp] theorem State.report_redraw (s : State) (r : Result) : (s.report r).redraw = s.redraw := rfl
@[simp] theorem State.report_dt (s : State) (r : Result) : (s.report r).dt = s.dt := rfl
@[simp] theorem State.report_st (s : State) (r : Result) : (s.report r).st = s.st := rfl
@[simp] theorem State.report_key (s : State) (r : Result) : (s.report r).key = s.key := rfl
@[simp] theorem State.report_kwActive (s : State) (r : Result) : (s.report r).kwActive = s.kwActive := rfl
@[simp] theorem State.report_kwReg (s : State) (r : Result) : (s.report r).kwReg = s.kwReg := rfl
@[simp] theorem State.report_ir (s : State) (r : Result) : (s.report r).ir = s.ir := rfl
@[simp] theorem State.report_result (s : State) (r : Result) : (s.report r).result = some r := rfl
@[simp] theorem State.report_faulted (s : State) (r : Result) : (s.report r).faulted = s.faulted := rfl
@[simp] theorem State.report_unknownSeen (s : State) (r : Result) : (s.report r).unknownSeen = s.unknownSeen := rfl
@[simp] theorem State.report_rndIn (s : State) (r : Result) : (s.report r).rndIn = s.rndIn := rfl
@[simp] theorem State.report_draws (s : State) (r : Result) : (s.report r).draws = s.draws := rfl
@[simp] theorem State.report_params (s : State) (r : Result) : (s.report r).params = s.params := rfl
@[simp] theorem State.base_report (s : State) (r : Result) : (s.report r).base = s.base := rfl
@[simp] theorem State.keyDown_report (s : State) (r : Result) (k : Nib) : (s.report r).keyDown k = s.keyDown k := rfl
@[simp] theorem State.getV_report (s : State) (r : Result) (y : Nib) : (s.report r).getV y = s.getV y := rfl
@[simp] theorem State.readByte_report (s : State) (r : Result) (k : Nat) : (s.report r).readByte k = s.readByte k := rfl

@[simp] theorem State.writeByte_mem (s : State) (a : Nat) (b : Byte) : (s.writeByte a b).mem = Memory.write s.base s.mem a b := rfl
@[simp] theorem State.writeByte_v (s : State) (a : Nat) (b : Byte) : (s.writeByte a b).v = s.v := rfl
@[simp] theorem State.writeByte_pc (s : State) (a : Nat) (b : Byte) : (s.writeByte a b).pc = s.pc := rfl
@[simp] theorem State.writeByte_i (s : State) (a : Nat) (b : Byte) : (s.writeByte a b).i = s.i := rfl
@[simp] theorem State.writeByte_sp (s : State) (a : Nat) (b : Byte) : (s.writeByte a b).sp = s.sp := rfl
@[simp] theorem State.writeByte_stack (s : State) (a : Nat) (b : Byte) : (s.writeByte a b).stack = s.stack := rfl
@[simp] theorem State.writeByte_fb (s : State) (a : Nat) (b : Byte) : (s.writeByte a b).fb = s.fb := rfl
@[simp] theorem State.writeByte_redraw (s : State) (a : Nat) (b : Byte) : (s.writeByte a b).redraw = s.redraw := rfl
@[simp] theorem State.writeByte_dt (s : State) (a : Nat) (b : Byte) : (s.writeByte a b).dt = s.dt := rfl
@[simp] theorem State.writeByte_st (s : State) (a : Nat) (b : Byte) : (s.writeByte a b).st = s.st := rfl
@[simp] theorem State.writeByte_key (s : State) (a : Nat) (b : Byte) : (s.writeByte a b).key = s.key := rfl
@[simp] theorem State.writeByte_kwActive (s : State) (a : Nat) (b : Byte) : (s.writeByte a b).kwActive = s.kwActive := rfl
@[simp] theorem State.writeByte_kwReg (s : State) (a : Nat) (b : Byte) : (s.writeByte a b).kwReg = s.kwReg := rfl
@[simp] theorem State.writeByte_ir (s : State) (a : Nat) (b : Byte) : (s.writeByte a b).ir = s.ir := rfl
@[simp] theorem State.writeByte_result (s : State) (a : Nat) (b : Byte) : (s.writeByte a b).result = s.result := rfl
@[simp] theorem State.writeByte_faulted (s : State) (a : Nat) (b : Byte) : (s.writeByte a b).faulted = s.faulted := rfl
@[simp] theorem State.writeByte_unknownSeen (s : State) (a : Nat) (b : Byte) : (s.writeByte a b).unknownSeen = s.unknownSeen := rfl
@[simp] theorem State.writeByte_rndIn (s : State) (a : Nat) (b : Byte) : (s.writeByte a b).rndIn = s.rndIn := rfl
@[simp] theorem State.writeByte_draws (s : State) (a : Nat) (b : Byte) : (s.writeByte a b).draws = s.draws := rfl
@[simp] theorem State.writeByte_params (s : State) (a : Nat) (b : Byte) : (s.writeByte a b).params = s.params := rfl
@[simp] theorem State.base_writeByte (s : State) (a : Nat) (b : Byte) : (s.writeByte a b).base = s.base := rfl
@[simp] theorem State.keyDown_writeByte (s : State) (a : Nat) (b : Byte) (k : Nib) : (s.writeByte a b).keyDown k = s.keyDown k := rfl
@[simp] theorem State.getV_writeByte (s : State) (a : Nat) (b : Byte) (y : Nib) : (s.writeByte a b).getV y = s.getV y := rfl

@[simp] theorem State.drawTaken_mem (s : State) : (s.drawTaken).mem = s.mem := rfl
@[simp] theorem State.drawTaken_v (s : State) : (s.drawTaken).v = s.v := rfl
@[simp] theorem State.drawTaken_pc (s : State) : (s.drawTaken).pc = s.pc := rfl
@[simp] theorem State.drawTaken_i (s : State) : (s.drawTaken).i = s.i := rfl
@[simp] theorem State.drawTaken_sp (s : State) : (s.drawTaken).sp = s.sp := rfl
@[simp] theorem State.drawTaken_stack (s : State) : (s.drawTaken).stack = s.stack := rfl
@[simp] theorem State.drawTaken_fb (s : State) : (s.drawTaken).fb = s.fb := rfl
@[simp] theorem State.drawTaken_redraw (s : State) : (s.drawTaken).redraw = s.redraw := rfl
@[simp] theorem State.drawTaken_dt (s : State) : (s.drawTaken).dt = s.dt := rfl
@[simp] theorem State.drawTaken_st (s : State) : (s.drawTaken).st = s.st := rfl
@[simp] theorem State.drawTaken_key (s : State) : (s.drawTaken).key = s.key := rfl
@[simp] theorem State.drawTaken_kwActive (s : State) : (s.drawTaken).kwActive = s.kwActive := rfl
@[simp] theorem State.drawTaken_kwReg (s : State) : (s.drawTaken).kwReg = s.kwReg := rfl
@[simp] theorem State.drawTaken_ir (s : State) : (s.drawTaken).ir = s.ir := rfl
@[simp] theorem State.drawTaken_result (s : State) : (s.drawTaken).result = s.result := rfl
@[simp] theorem State.drawTaken_faulted (s : State) : (s.drawTaken).faulted = s.faulted := rfl
@[simp] theorem State.drawTaken_unknownSeen (s : State) : (s.drawTaken).unknownSeen = s.unknownSeen := rfl
@[simp] theorem State.drawTaken_rndIn (s : State) : (s.drawTaken).rndIn = none := rfl
@[simp] theorem State.drawTaken_draws (s : State) : (s.drawTaken).draws = s.draws + 1 := rfl
@[simp] theorem State.drawTaken_params (s : State) : (s.drawTaken).params = s.params := rfl
@[simp] theorem State.base_drawTaken (s : State) : (s.drawTaken).base = s.base := rfl
@[simp] theorem State.keyDown_drawTaken (s : State) (k : Nib) : (s.drawTaken).keyDown k = s.keyDown k := rfl
@[simp] theorem State.getV_drawTaken (s : State) (y : Nib) : (s.drawTaken).getV y = s.getV y := rfl
@[simp] theorem State.readByte_drawTaken (s : State) (k : Nat) : (s.drawTaken).readByte k = s.readByte k := rfl

@[simp] theorem State.loadRegs_mem (s : State) (x : Nib) (a : Nat) : (s.loadRegs x a).mem = s.mem := rfl
@[simp] theorem State.loadRegs_v (s : State) (x : Nib) (a : Nat) : (s.loadRegs x a).v = Vector.ofFn fun k => if k.val ≤ x.toNat then s.readByte (a + k.val) else s.v[k] := rfl
@[simp] theorem State.loadRegs_pc (s : State) (x : Nib) (a : Nat) : (s.loadRegs x a).pc = s.pc := rfl
@[simp] theorem State.loadRegs_i (s : State) (x : Nib) (a : Nat) : (s.loadRegs x a).i = s.i := rfl
@[simp] theorem State.loadRegs_sp (s : State) (x : Nib) (a : Nat) : (s.loadRegs x a).sp = s.sp := rfl
@[simp] theorem State.loadRegs_stack (s : State) (x : Nib) (a : Nat) : (s.loadRegs x a).stack = s.stack := rfl
@[simp] theorem State.loadRegs_fb (s : State) (x : Nib) (a : Nat) : (s.loadRegs x a).fb = s.fb := rfl
@[simp] theorem State.loadRegs_redraw (s : State) (x : Nib) (a : Nat) : (s.loadRegs x a).redraw = s.redraw := rfl
@[simp] theorem State.loadRegs_dt (s : State) (x : Nib) (a : Nat) : (s.loadRegs x a).dt = s.dt := rfl
@[simp] theorem State.loadRegs_st (s : State) (x : Nib) (a : Nat) : (s.loadRegs x a).st = s.st := rfl
@[simp] theorem State.loadRegs_key (s : State) (x : Nib) (a : Nat) : (s.loadRegs x a).key = s.key := rfl
@[simp] theorem State.loadRegs_kwActive (s : State) (x : Nib) (a : Nat) : (s.loadRegs x a).kwActive = s.kwActive := rfl
@[simp] theorem State.loadRegs_kwReg (s : State) (x : Nib) (a : Nat) : (s.loadRegs x a).kwReg = s.kwReg := rfl
@[simp] theorem State.loadRegs_ir (s : State) (x : Nib) (a : Nat) : (s.loadRegs x a).ir = s.ir := rfl
@[simp] theorem State.loadRegs_result (s : State) (x : Nib) (a : Nat) : (s.loadRegs x a).result = s.result := rfl
@[simp] theorem State.loadRegs_faulted (s : State) (x : Nib) (a : Nat) : (s.loadRegs x a).faulted = s.faulted := rfl
@[simp] theorem State.loadRegs_unknownSeen (s : State) (x : Nib) (a : Nat) : (s.loadRegs x a).unknownSeen = s.unknownSeen := rfl
@[simp] theorem State.loadRegs_rndIn (s : State) (x : Nib) (a : Nat) : (s.loadRegs x a).rndIn = s.rndIn := rfl
@[simp] theorem State.loadRegs_draws (s : State) (x : Nib) (a : Nat) : (s.loadRegs x a).draws = s.draws := rfl
@[simp] theorem State.loadRegs_params (s : State) (x : Nib) (a : Nat) : (s.loadRegs x a).params = s.params := rfl
@[simp] theorem State.base_loadRegs (s : State) (x : Nib) (a : Nat) : (s.loadRegs x a).base = s.base := rfl
@[simp] theorem State.keyDown_loadRegs (s : State) (x : Nib) (a : Nat) (k : Nib) : (s.loadRegs x a).keyDown k = s.keyDown k := rfl
@[simp] theorem State.readByte_loadRegs (s : State) (x : Nib) (a : Nat) (k : Nat) : (s.loadRegs x a).readByte k = s.readByte k := rfl

@[simp] theorem State.showCanvas_mem (s : State) (c : Canvas) : (s.showCanvas c).mem = s.mem := rfl
@[simp] theorem State.showCanvas_v (s : State) (c : Canvas) : (s.showCanvas c).v = s.v.set vf.toNat (flagByte c.hit) vf.isLt := rfl
@[simp] theorem State.showCanvas_pc (s : State) (c : Canvas) : (s.showCanvas c).pc = s.pc := rfl
@[simp] theorem State.showCanvas_i (s : State) (c : Canvas) : (s.showCanvas c).i = s.i := rfl
@[simp] theorem State.showCanvas_sp (s : State) (c : Canvas) : (s.showCanvas c).sp = s.sp := rfl
@[simp] theorem State.showCanvas_stack (s : State) (c : Canvas) : (s.showCanvas c).stack = s.stack := rfl
@[simp] theorem State.showCanvas_fb (s : State) (c : Canvas) : (s.showCanvas c).fb = c.fb := rfl
@[simp] theorem State.showCanvas_redraw (s : State) (c : Canvas) : (s.showCanvas c).redraw = true := rfl
@[simp] theorem State.showCanvas_dt (s : State) (c : Canvas) : (s.showCanvas c).dt = s.dt := rfl
@[simp] theorem State.showCanvas_st (s : State) (c : Canvas) : (s.showCanvas c).st = s.st := rfl
@[simp] theorem State.showCanvas_key (s : State) (c : Canvas) : (s.showCanvas c).key = s.key := rfl
@[simp] theorem State.showCanvas_kwActive (s : State) (c : Canvas) : (s.showCanvas c).kwActive = s.kwActive := rfl
@[simp] theorem State.showCanvas_kwReg (s : State) (c : Canvas) : (s.showCanvas c).kwReg = s.kwReg := rfl
@[simp] theorem State.showCanvas_ir (s : State) (c : Canvas) : (s.showCanvas c).ir = s.ir := rfl
@[simp] theorem State.showCanvas_result (s : State) (c : Canvas) : (s.showCanvas c).result = s.result := rfl
@[simp] theorem State.showCanvas_faulted (s : State) (c : Canvas) : (s.showCanvas c).faulted = s.faulted := rfl
@[simp] theorem State.showCanvas_unknownSeen (s : State) (c : Canvas) : (s.showCanvas c).unknownSeen = s.unknownSeen := rfl
@[simp] theorem State.showCanvas_rndIn (s : State) (c : Canvas) : (s.showCanvas c).rndIn = s.rndIn := rfl
@[simp] theorem State.showCanvas_draws (s : State) (c : Canvas) : (s.showCanvas c).draws = s.draws := rfl
@[simp] theorem State.showCanvas_params (s : State) (c : Canvas) : (s.showCanvas c).params = s.params := rfl
@[simp] theorem State.base_showCanvas (s : State) (c : Canvas) : (s.showCanvas c).base = s.base := rfl
@[simp] theorem State.keyDown_showCanvas (s : State) (c : Canvas) (k : Nib) : (s.showCanvas c).keyDown k = s.keyDown k := rfl
@[simp] theorem State.readByte_showCanvas (s : State) (c : Canvas) (k : Nat) : (s.showCanvas c).readByte k = s.readByte k := rfl

end Sys2Proof.Machine
end

