-- ==== Sys2Proof/Laws/Ops.lean ====
section
/-! SUPPORT. One law per shared operation: everything it can do. -/

namespace Sys2Proof.Machine

/-! The end of a cycle -/

/-- `finish` always answers a next state: the one it is given, with the result recorded. -/
@[simp] theorem finish_eq_next {s t : State} {r : Result} : finish s r = .next t ↔ s.report r = t := by
  simp [finish]

@[simp] theorem raise_ne_next {f : Fault} {t : State} : raise f ≠ .next t := by
  simp [raise]

@[simp] theorem finish_ne_fault {s : State} {r : Result} {f : Fault} : finish s r ≠ .fault f := by
  simp [finish]

@[simp] theorem raise_eq_fault {f g : Fault} : raise f = .fault g ↔ f = g := by
  simp [raise]

@[simp] theorem finish_ne_refused {s : State} {r : Result} {q : Refusal} : finish s r ≠ .refused q := by
  simp [finish]

@[simp] theorem raise_ne_refused {f : Fault} {q : Refusal} : raise f ≠ .refused q := by
  simp [raise]

/-! Registers -/

@[simp] theorem State.getV_setV_same (s : State) (x : Nib) (b : Byte) : (s.setV x b).getV x = b := by
  simp [State.getV]

theorem State.getV_setV_other (s : State) {x y : Nib} (b : Byte) (h : y ≠ x) :
    (s.setV x b).getV y = s.getV y := by
  have hne : x.toNat ≠ y.toNat := fun e => h (BitVec.eq_of_toNat_eq e.symm)
  simp [State.getV, hne]

theorem State.getV_setV (s : State) (x y : Nib) (b : Byte) :
    (s.setV x b).getV y = if y = x then b else s.getV y := by
  split
  · next h => subst h; simp
  · next h => exact State.getV_setV_other s b h

/-- A register read sees only the register file. -/
theorem State.getV_congr {s t : State} (h : s.v = t.v) (x : Nib) : s.getV x = t.getV x := by
  simp [State.getV, h]

/-- `writeFlagged` writes nothing but the register file. -/
theorem State.writeFlagged_eq (s : State) (x : Nib) (result flag : Byte) :
    s.writeFlagged x result flag = { s with v := (s.writeFlagged x result flag).v } := by
  unfold State.writeFlagged
  split <;> rfl

/-- What every register holds after the two writes of 8XY5, 8XY6 and 8XYE. -/
theorem State.getV_writeFlagged (s : State) (x y : Nib) (result flag : Byte) :
    (s.writeFlagged x result flag).getV y =
      match s.params.vfOrder with
      | .listed => if y = x then result else if y = vf then flag else s.getV y
      | .flagLast => if y = vf then flag else if y = x then result else s.getV y := by
  unfold State.writeFlagged State.writeThenFlag
  cases s.params.vfOrder <;> simp [State.getV_setV]

/-- What every register holds after result, then flag (8XY4). -/
theorem State.getV_writeThenFlag (s : State) (x y : Nib) (result flag : Byte) :
    (s.writeThenFlag x result flag).getV y = if y = vf then flag else if y = x then result else s.getV y := by
  simp [State.writeThenFlag, State.getV_setV]

/-! Memory through the state -/

/-- A byte read sees only the memory and the FONT. -/
theorem State.readByte_congr {s t : State} (hm : s.mem = t.mem) (hp : s.params = t.params) (a : Nat) :
    s.readByte a = t.readByte a := by
  simp [State.readByte, State.base, hm, hp]

@[simp] theorem State.readByte_writeByte_same (s : State) (a : Nat) (b : Byte) : (s.writeByte a b).readByte a = b :=
  Memory.read_write_same _ _ _ _

theorem State.readByte_writeByte_other (s : State) {a c : Nat} (b : Byte) (h : c ≠ a) :
    (s.writeByte a b).readByte c = s.readByte c :=
  Memory.read_write_other _ _ _ h

/-- `writeBytes` writes nothing but memory. -/
theorem State.writeBytes_eq (s : State) (a : Nat) (bs : List Byte) :
    s.writeBytes a bs = { s with mem := (s.writeBytes a bs).mem } := by
  induction bs generalizing s a with
  | nil => rfl
  | cons b rest ih =>
    simp only [State.writeBytes]
    rw [ih]
    rfl

/-- What every address reads as after bytes have been written at consecutive addresses. -/
theorem State.readByte_writeBytes (s : State) (a c : Nat) (bs : List Byte) :
    (s.writeBytes a bs).readByte c = if a ≤ c then bs.getD (c - a) (s.readByte c) else s.readByte c := by
  induction bs generalizing s a with
  | nil => simp [State.writeBytes]
  | cons b rest ih =>
    simp only [State.writeBytes, ih]
    rcases Nat.lt_trichotomy c a with h | h | h
    · have h1 : ¬a + 1 ≤ c := by omega
      have h2 : ¬a ≤ c := by omega
      simp [h1, h2, State.readByte_writeByte_other s b (Nat.ne_of_lt h)]
    · subst h
      have h1 : ¬c + 1 ≤ c := by omega
      simp [h1]
    · have h1 : a + 1 ≤ c := by omega
      have h2 : a ≤ c := by omega
      have h3 : c - a = c - (a + 1) + 1 := by omega
      rw [if_pos h1, if_pos h2, h3, State.readByte_writeByte_other s b (by omega)]
      simp

/-- Bytes written to existing addresses keep the canonical form. -/
theorem State.writeBytes_wf {s : State} {a : Nat} {bs : List Byte} (hr : a + bs.length ≤ memSize)
    (h : Memory.wf s.base s.mem = true) : Memory.wf s.base (s.writeBytes a bs).mem = true := by
  induction bs generalizing s a with
  | nil => exact h
  | cons b rest ih =>
    simp only [List.length_cons] at hr
    exact ih (s := s.writeByte a b) (by omega) (Memory.wf_write b (by omega) h)

/-! The range check -/

/-- The range check passes exactly when no address is used or the last one exists. -/
theorem firstOutOfRange_eq_none {base n : Nat} : firstOutOfRange base n = none ↔ n = 0 ∨ base + n ≤ 0x1000 := by
  simp only [firstOutOfRange, List.find?_eq_none, List.mem_map, List.mem_range, decide_eq_true_eq]
  constructor
  · intro h
    by_cases hn : n = 0
    · exact .inl hn
    · have := h (base + (n - 1)) ⟨n - 1, by omega, rfl⟩
      omega
  · rintro h a ⟨k, hk, rfl⟩
    omega

/-- The address reported is the lowest one above 0xFFF. -/
theorem firstOutOfRange_eq_some {base n a : Nat} (h : firstOutOfRange base n = some a) :
    a = max base 0x1000 ∧ n ≠ 0 ∧ 0x1000 < base + n := by
  simp only [firstOutOfRange, List.find?_eq_some_iff_append, List.map_eq_append_iff, decide_eq_true_eq] at h
  obtain ⟨ha, as, bs, ⟨l1, l2, hl, rfl, hbs⟩, hlow⟩ := h
  obtain ⟨k, l3, rfl, rfl, rfl⟩ : ∃ k l3, l2 = k :: l3 ∧ base + k = a ∧ l3.map (base + ·) = bs := by
    cases l2 with
    | nil => simp at hbs
    | cons k l3 => exact ⟨k, l3, rfl, by simpa using (List.cons.inj hbs).1, by simpa using (List.cons.inj hbs).2⟩
  have hk : k = l1.length ∧ l1.length < n := by
    have hlen : l1.length < (List.range n).length := by rw [hl]; simp
    have hget : (List.range n)[l1.length]'hlen = k := by simp [hl]
    simp only [List.length_range] at hlen
    rw [List.getElem_range] at hget
    exact ⟨hget.symm, hlen⟩
  refine ⟨?_, by omega, by omega⟩
  by_cases h0 : l1.length = 0
  · omega
  · have hmem : l1.length - 1 ∈ l1 := by
      have hlen : l1.length - 1 < l1.length := by omega
      have hget : l1[l1.length - 1]'hlen = l1.length - 1 := by
        have h1 : (List.range n)[l1.length - 1]'(by simp; omega) = l1.length - 1 := by simp
        simp only [hl, List.getElem_append_left hlen] at h1
        exact h1
      exact hget ▸ List.getElem_mem hlen
    have := hlow (base + (l1.length - 1)) (List.mem_map.mpr ⟨_, hmem, rfl⟩)
    simp at this
    omega

/-- A range-checked body answers a next state exactly when every address exists and the body answers it. -/
theorem checkRange_eq_next {base n : Nat} {body : Out} {t : State} :
    checkRange base n body = .next t ↔ (n = 0 ∨ base + n ≤ 0x1000) ∧ body = .next t := by
  unfold checkRange
  split
  · next a h =>
    have := firstOutOfRange_eq_some h
    simp [raise]
    omega
  · next h => simp [firstOutOfRange_eq_none.mp h]

/-- A range-checked body with an address above 0xFFF reports the lowest such address. -/
theorem checkRange_out {base n : Nat} {body : Out} (hn : n ≠ 0) (h : 0x1000 < base + n) :
    checkRange base n body = .fault (.addressOutOfRange (max base 0x1000)) := by
  unfold checkRange
  split
  · next a ha => simp [raise, (firstOutOfRange_eq_some ha).1]
  · next hnone => exact absurd (firstOutOfRange_eq_none.mp hnone) (by omega)

theorem checkRange_in {base n : Nat} {body : Out} (h : n = 0 ∨ base + n ≤ 0x1000) :
    checkRange base n body = body := by
  simp [checkRange, firstOutOfRange_eq_none.mpr h]

/-! The call stack -/

/-- A push succeeds exactly with fewer than 16 entries held. -/
theorem State.push_eq_ok {s t : State} {w : Word} :
    s.push w = .ok t ↔
      ∃ h : s.sp.val < 16, t = { s with stack := s.stack.set s.sp.val w h, sp := ⟨s.sp.val + 1, by omega⟩ } := by
  unfold State.push
  split
  · next h => simp [h, eq_comm]
  · next h => simp [h]

theorem State.push_eq_error {s : State} {w : Word} {f : Fault} :
    s.push w = .error f ↔ s.sp.val = 16 ∧ f = .stackOverflow := by
  unfold State.push
  have := s.sp.isLt
  split
  · next h => simp; omega
  · next h => simp [eq_comm]; omega

/-- A pop succeeds exactly with an entry held. -/
theorem State.pop_eq_ok {s t : State} {w : Word} :
    s.pop = .ok (w, t) ↔
      ∃ h : 0 < s.sp.val, w = s.stack[s.sp.val - 1]'(by omega) ∧ t = { s with sp := ⟨s.sp.val - 1, by omega⟩ } := by
  unfold State.pop
  split
  · next h => simp [h, eq_comm]
  · next h => simp [h]

theorem State.pop_eq_error {s : State} {f : Fault} : s.pop = .error f ↔ s.sp.val = 0 ∧ f = .stackUnderflow := by
  unfold State.pop
  split
  · next h => simp; omega
  · next h => simp [eq_comm]; omega

/-! Keys -/

theorem State.namedKey_eq_ok {s : State} {k : Byte} {c : Bool} :
    s.namedKey k = .ok c ↔ ∃ h : k.toNat < 16, s.key[k.toNat] = c := by
  unfold State.namedKey
  split
  · next h => simp [h]
  · next h => simp [h]

theorem State.namedKey_eq_error {s : State} {k : Byte} {f : Fault} :
    s.namedKey k = .error f ↔ 15 < k.toNat ∧ f = .keyOutOfRange k := by
  unfold State.namedKey
  split
  · next h => simp; omega
  · next h => simp [eq_comm]; omega

theorem State.mem_pressedKeys {s : State} {k : Nib} : k ∈ s.pressedKeys ↔ s.keyDown k = true := by
  simp only [State.pressedKeys, List.mem_filter, List.mem_map, List.mem_range]
  constructor
  · exact fun h => h.2
  · exact fun h => ⟨⟨k.toNat, k.isLt, by simp⟩, h⟩

/-- No key is selected exactly when none is pressed, under both values of KEY_WAIT_SELECT. -/
theorem State.selectKey_eq_none {s : State} : s.selectKey = none ↔ ∀ k, s.keyDown k = false := by
  have hempty : s.pressedKeys = [] ↔ ∀ k, s.keyDown k = false := by
    simp only [List.eq_nil_iff_forall_not_mem, State.mem_pressedKeys, Bool.not_eq_true]
  rw [← hempty]
  unfold State.selectKey
  split
  · simp
  · rw [List.getElem?_eq_none_iff]
    constructor
    · intro h
      rcases Nat.eq_zero_or_pos s.pressedKeys.length with h0 | h0
      · exact List.eq_nil_of_length_eq_zero h0
      · exact absurd (Nat.mod_lt (Config.keyDraw s.draws) h0) (by omega)
    · intro h; simp [h]

/-- A selected key is pressed. -/
theorem State.selectKey_pressed {s : State} {k : Nib} (h : s.selectKey = some k) : s.keyDown k = true := by
  rw [← State.mem_pressedKeys]
  unfold State.selectKey at h
  split at h
  · exact List.mem_of_head? h
  · exact List.mem_of_getElem? h

/-- `keyTaken` writes nothing but the draw counter. -/
theorem State.keyTaken_eq (s : State) : s.keyTaken = { s with draws := s.keyTaken.draws } := by
  unfold State.keyTaken
  split <;> rfl

/-- A pressed key makes the selection answer a pressed key. -/
theorem State.selectKey_of_down {s : State} {k : Nib} (hk : s.keyDown k = true) :
    ∃ j, s.selectKey = some j ∧ s.keyDown j = true := by
  cases h : s.selectKey with
  | none =>
    rw [State.selectKey_eq_none.mp h k] at hk
    cases hk
  | some j => exact ⟨j, rfl, State.selectKey_pressed h⟩

/-- Under KEY_WAIT_SELECT = lowest the selected key is the lowest pressed one. -/
theorem State.selectKey_lowest {s : State} {j k : Nib} (h : s.params.keySelect = .lowest) (hs : s.selectKey = some j)
    (hk : s.keyDown k = true) : j.toNat ≤ k.toNat := by
  unfold State.selectKey at hs
  rw [h] at hs
  have hp : s.pressedKeys.Pairwise fun a b => a.toNat ≤ b.toNat := by
    unfold State.pressedKeys
    apply List.Pairwise.filter
    decide
  have hm := State.mem_pressedKeys.mpr hk
  cases hl : s.pressedKeys with
  | nil =>
    rw [hl] at hm
    cases hm
  | cons a rest =>
    rw [hl] at hs hm hp
    simp only [List.head?_cons, Option.some.injEq] at hs
    subst hs
    rcases List.mem_cons.mp hm with rfl | hm
    · exact Nat.le_refl _
    · exact (List.pairwise_cons.mp hp).1 _ hm

theorem State.keyTaken_lowest {s : State} (h : s.params.keySelect = .lowest) : s.keyTaken = s := by
  simp [State.keyTaken, h]

/-- `storeKey` writes one register, PC and the draw counter. -/
theorem State.storeKey_eq (s : State) (x k : Nib) :
    s.storeKey x k =
      { s with v := s.v.set x.toNat (k.setWidth 8) x.isLt, pc := s.pc + 2#16, draws := s.keyTaken.draws } := by
  unfold State.storeKey
  rw [State.keyTaken_eq]
  rfl

/-! Operands -/

theorem flagByte_toNat (c : Bool) : (flagByte c).toNat = if c then 1 else 0 := by
  cases c <;> rfl

theorem zextAddr_toNat (nnn : Imm12) : (zextAddr nnn).toNat = nnn.toNat := by
  have := nnn.isLt
  simp [zextAddr]
  omega

theorem zextByte_toNat (b : Byte) : (zextByte b).toNat = b.toNat := by
  have := b.isLt
  simp [zextByte]
  omega

theorem glyphAddress_toNat (d : Byte) : (glyphAddress d).toNat = d.toNat * 5 := by
  have := d.isLt
  simp [glyphAddress]
  omega

/-- V[k] is the k-th of the bytes FX55 stores. -/
theorem State.firstRegs_getD (s : State) (x r : Nib) (d : Byte) (h : r.toNat ≤ x.toNat) :
    (s.firstRegs x).getD r.toNat d = s.getV r := by
  have := r.isLt
  unfold State.firstRegs
  rw [List.getD_eq_getElem?_getD, List.getElem?_take, if_pos (by omega)]
  have hr : r.toNat < 16 := r.isLt
  simp [State.getV, hr]

theorem State.firstRegs_length (s : State) (x : Nib) : (s.firstRegs x).length = x.toNat + 1 := by
  have := x.isLt
  simp [State.firstRegs]
  omega

/-- The registers after FX65's load. -/
theorem State.getV_loadRegs (s : State) (x : Nib) (a : Nat) (r : Nib) :
    (s.loadRegs x a).getV r = if r.toNat ≤ x.toNat then s.readByte (a + r.toNat) else s.getV r := by
  simp [State.getV]

/-- A register after a sprite has been shown: VF is the collision flag. -/
theorem State.getV_showCanvas (s : State) (c : Canvas) (r : Nib) :
    (s.showCanvas c).getV r = if r = vf then flagByte c.hit else s.getV r :=
  State.getV_setV s vf r (flagByte c.hit)

/-! Fetch -/

/-- Nothing stops the fetch exactly when the word lies in memory and PC is even or ODD_PC_POLICY = fetch. -/
theorem State.fetchFault_eq_none {s : State} :
    s.fetchFault = none ↔ (s.pc.toNat % 2 = 0 ∨ s.params.oddPc = .fetch) ∧ s.pc.toNat + 1 ≤ 0xFFF := by
  unfold State.fetchFault
  rcases Nat.mod_two_eq_zero_or_one s.pc.toNat with h | h <;> cases s.params.oddPc <;>
    by_cases h1 : 0xFFF < s.pc.toNat <;> by_cases h2 : 0xFFF < s.pc.toNat + 1 <;> simp [h, h1, h2] <;> omega

end Sys2Proof.Machine
end

