-- ==== Sys2Proof/Laws/Display.lean ====
section
/-! SUPPORT. A sprite as a list of bits and the pixels they fall on: no two bits of a sprite share a pixel, and drawing
such a list exclusive-ors every pixel once. -/

namespace Sys2Proof.Machine

/-- Bits drawn one after another, each with its pixel. -/
def Canvas.drawList (c : Canvas) (l : List (Bool × Nat)) : Canvas :=
  l.foldl (fun c e => c.drawBit e.1 e.2) c

/-- The bits of one sprite row with their pixels. -/
def rowPixels (cx cy row : Nat) (b : Byte) : List (Bool × Nat) :=
  (List.range 8).map fun col => (b.getLsbD (7 - col), pixIndex (cx + col) (cy + row))

/-- The bits of all sprite rows with their pixels. -/
def spritePixels (cx cy row : Nat) : List Byte → List (Bool × Nat)
  | [] => []
  | b :: rest => rowPixels cx cy row b ++ spritePixels cx cy (row + 1) rest

theorem pixIndex_lt (c r : Nat) : pixIndex c r < 2048 := by
  unfold pixIndex
  omega

theorem pixIndex_eq {c r c' r' : Nat} : pixIndex c r = pixIndex c' r' ↔ c % 64 = c' % 64 ∧ r % 32 = r' % 32 := by
  unfold pixIndex
  omega

theorem Canvas.drawRow_eq (c : Canvas) (cx cy row : Nat) (b : Byte) :
    c.drawRow cx cy row b = c.drawList (rowPixels cx cy row b) := by
  simp [Canvas.drawRow, Canvas.drawList, rowPixels, List.foldl_map]

theorem Canvas.drawRows_eq (c : Canvas) (cx cy row : Nat) (bs : List Byte) :
    c.drawRows cx cy row bs = c.drawList (spritePixels cx cy row bs) := by
  induction bs generalizing c row with
  | nil => rfl
  | cons b rest ih => simp [Canvas.drawRows, spritePixels, ih, Canvas.drawRow_eq, Canvas.drawList]

/-- One bit toggles its own pixel if it is 1, and no other. -/
theorem Canvas.drawBit_pixel (c : Canvas) (bit : Bool) (p : Nat) {q : Nat} (hq : q < 2048) :
    (c.drawBit bit p).fb.getLsbD q = (c.fb.getLsbD q ^^ (bit && decide (p = q))) := by
  cases bit <;> simp [Canvas.drawBit, hq, eq_comm]

/-- One bit records a collision if it and its pixel are 1. -/
theorem Canvas.drawBit_hit (c : Canvas) (bit : Bool) (p : Nat) :
    (c.drawBit bit p).hit = (c.hit || (bit && c.fb.getLsbD p)) := by
  cases bit <;> simp [Canvas.drawBit]

/-- Which bits a sprite has where. -/
theorem mem_spritePixels (cx cy row : Nat) (bs : List Byte) (bit : Bool) (q : Nat) :
    (bit, q) ∈ spritePixels cx cy row bs ↔
      ∃ j col, j < bs.length ∧ col < 8 ∧ bit = (bs.getD j 0).getLsbD (7 - col) ∧
        q = pixIndex (cx + col) (cy + (row + j)) := by
  induction bs generalizing row with
  | nil => simp [spritePixels]
  | cons a rest ih =>
    simp only [spritePixels, List.mem_append, ih, rowPixels, List.mem_map, List.mem_range, Prod.mk.injEq]
    constructor
    · rintro (⟨col, hc, h1, h2⟩ | ⟨j, col, hj, hc, h1, h2⟩)
      · exact ⟨0, col, by simp, hc, by simp [h1], by simp [h2]⟩
      · exact ⟨j + 1, col, by simpa using hj, hc, by simp [h1], by rw [h2]; congr 1; omega⟩
    · rintro ⟨j, col, hj, hc, h1, h2⟩
      cases j with
      | zero => exact .inl ⟨col, hc, by simp [h1], by simp [h2]⟩
      | succ j => exact .inr ⟨j, col, by simpa using hj, hc, by simp [h1], by rw [h2]; congr 1; omega⟩

/-- No two bits of a sprite of at most 32 rows fall on one pixel. -/
theorem spritePixels_nodup (cx cy row : Nat) (bs : List Byte) (hl : bs.length ≤ 32) :
    ((spritePixels cx cy row bs).map (·.2)).Nodup := by
  induction bs generalizing row with
  | nil => simp [spritePixels]
  | cons a rest ih =>
    simp only [List.length_cons] at hl
    simp only [spritePixels, List.map_append, List.nodup_append]
    refine ⟨?_, ih _ (by omega), ?_⟩
    · simp only [rowPixels, List.map_map]
      refine List.Nodup.map_on (fun c hc d hd h => ?_) List.nodup_range
      simp only [List.mem_range, Function.comp] at hc hd h
      rw [pixIndex_eq] at h
      omega
    · intro p hp q hq
      simp only [List.mem_map, Prod.exists, exists_eq_right] at hp hq
      obtain ⟨b, hb⟩ := hp
      obtain ⟨b', hb'⟩ := hq
      simp only [rowPixels, List.mem_map, List.mem_range, Prod.mk.injEq] at hb
      obtain ⟨col, hc, -, rfl⟩ := hb
      obtain ⟨j, col', hj, hc', -, rfl⟩ := (mem_spritePixels _ _ _ _ _ _).mp hb'
      rw [ne_eq, pixIndex_eq]
      omega

/-- Bits on pixels of their own: each pixel is exclusive-ored once, and the collision flag is set exactly when some 1
bit met a pixel that was 1 at the start. -/
theorem Canvas.drawList_spec (l : List (Bool × Nat)) (c : Canvas) (hn : (l.map (·.2)).Nodup)
    (hb : ∀ e ∈ l, e.2 < 2048) :
    (∀ q < 2048, (c.drawList l).fb.getLsbD q = (c.fb.getLsbD q ^^ decide ((true, q) ∈ l))) ∧
    ((c.drawList l).hit = true ↔ c.hit = true ∨ ∃ q, (true, q) ∈ l ∧ c.fb.getLsbD q = true) := by
  induction l generalizing c with
  | nil => simp [Canvas.drawList]
  | cons e rest ih =>
    obtain ⟨bit, p⟩ := e
    simp only [List.map_cons, List.nodup_cons, List.mem_map, not_exists, not_and] at hn
    have hnot : ∀ b, (b, p) ∉ rest := fun b hm => hn.1 _ hm rfl
    obtain ⟨i1, i2⟩ := ih (c.drawBit bit p) hn.2 fun e he => hb e (by simp [he])
    have hother : ∀ q, (true, q) ∈ rest → (c.drawBit bit p).fb.getLsbD q = c.fb.getLsbD q := by
      intro q hm
      have hne : p ≠ q := by
        rintro rfl
        exact hnot _ hm
      simp [Canvas.drawBit_pixel c bit p (hb (true, q) (by simp [hm])), hne]
    have hstep : c.drawList ((bit, p) :: rest) = (c.drawBit bit p).drawList rest := rfl
    rw [hstep]
    constructor
    · intro q hq
      rw [i1 q hq, Canvas.drawBit_pixel c bit p hq]
      by_cases hpq : p = q
      · subst hpq
        cases bit <;> simp [hnot]
      · simp [hpq, Ne.symm hpq]
    · rw [i2, Canvas.drawBit_hit]
      simp only [Bool.or_eq_true, Bool.and_eq_true, List.mem_cons, Prod.mk.injEq]
      constructor
      · rintro ((h | ⟨h1, h2⟩) | ⟨q, hm, hf⟩)
        · exact .inl h
        · exact .inr ⟨p, .inl ⟨h1.symm, rfl⟩, h2⟩
        · exact .inr ⟨q, .inr hm, by rwa [hother q hm] at hf⟩
      · rintro (h | ⟨q, ⟨h1, rfl⟩ | hm, hf⟩)
        · exact .inl (.inl h)
        · exact .inl (.inr ⟨h1.symm, hf⟩)
        · exact .inr ⟨q, hm, by rwa [hother q hm]⟩

end Sys2Proof.Machine
end

