-- ==== Sys2Proof/Laws/PerInstr.lean ====
section
/-! SUPPORT. The family OwnRow: every instruction is well formed, and the encoder's word is the one the row of
spec/30_encoding.md R100 gives to the instruction's operands (R91, R92, R107). -/

namespace Sys2Proof.Laws

/-- An operand of up to 12 bits, shifted to its field, as a number. -/
theorem place_toNat {n k : Nat} (x : BitVec n) (h : n + k ≤ 16) :
    (BitVec.ofNat 16 x.toNat <<< k).toNat = x.toNat * 2 ^ k := by
  have hx := x.isLt
  have hb : x.toNat * 2 ^ k < 2 ^ 16 :=
    calc x.toNat * 2 ^ k < 2 ^ n * 2 ^ k := Nat.mul_lt_mul_of_pos_right hx (Nat.two_pow_pos k)
      _ = 2 ^ (n + k) := (Nat.pow_add 2 n k).symm
      _ ≤ 2 ^ 16 := Nat.pow_le_pow_right (by decide) h
  have hs : x.toNat < 2 ^ 16 :=
    calc x.toNat < 2 ^ n := hx
      _ ≤ 2 ^ 16 := Nat.pow_le_pow_right (by decide) (by omega)
  rw [BitVec.toNat_shiftLeft, BitVec.toNat_ofNat, Nat.mod_eq_of_lt hs, Nat.shiftLeft_eq, Nat.mod_eq_of_lt hb]

/-- The word of a format A row. -/
theorem placeA (o : Nib) (nnn : Imm12) :
    BitVec.ofNat 16 (o.toNat * 4096) ||| placeOperands [(0, 12)] [nnn.toNat] = (o ++ nnn : Word) := by
  apply BitVec.eq_of_toNat_eq
  have ho := o.isLt
  have hn := nnn.isLt
  have e : (BitVec.ofNat 16 (o.toNat * 4096)).toNat = o.toNat * 4096 := by
    rw [BitVec.toNat_ofNat]; omega
  have e1 := place_toNat (k := 0) nnn (by decide)
  simp only [placeOperands, BitVec.or_zero]
  rw [packA_toNat, or_toNat_of_low 12 (by rw [e]; omega) (by rw [e1]; omega), e, e1]
  omega

/-- The word of a format XK row. -/
theorem placeXK (o x : Nib) (nn : Byte) :
    BitVec.ofNat 16 (o.toNat * 4096) ||| placeOperands [(8, 4), (0, 8)] [x.toNat, nn.toNat] = (o ++ x ++ nn : Word) := by
  apply BitVec.eq_of_toNat_eq
  have ho := o.isLt
  have hx := x.isLt
  have hn := nn.isLt
  have e : (BitVec.ofNat 16 (o.toNat * 4096)).toNat = o.toNat * 4096 := by
    rw [BitVec.toNat_ofNat]; omega
  have e1 := place_toNat (k := 0) nn (by decide)
  have e2 := place_toNat (k := 8) x (by decide)
  simp only [placeOperands, BitVec.or_zero]
  have e3 := or_toNat_of_low (hi := BitVec.ofNat 16 x.toNat <<< 8) (lo := BitVec.ofNat 16 nn.toNat <<< 0) 8
    (by rw [e2]; omega) (by rw [e1]; omega)
  rw [packXK_toNat, or_toNat_of_low 12 (by rw [e]; omega) (by rw [e3, e2, e1]; omega), e, e3, e2, e1]
  omega

/-- The word of a format XYN row. -/
theorem placeXYN (o x y n : Nib) :
    BitVec.ofNat 16 (o.toNat * 4096) ||| placeOperands [(8, 4), (4, 4), (0, 4)] [x.toNat, y.toNat, n.toNat] =
      (o ++ x ++ y ++ n : Word) := by
  apply BitVec.eq_of_toNat_eq
  have ho := o.isLt
  have hx := x.isLt
  have hy := y.isLt
  have hn := n.isLt
  have e : (BitVec.ofNat 16 (o.toNat * 4096)).toNat = o.toNat * 4096 := by
    rw [BitVec.toNat_ofNat]; omega
  have e1 := place_toNat (k := 0) n (by decide)
  have e2 := place_toNat (k := 4) y (by decide)
  have e3 := place_toNat (k := 8) x (by decide)
  simp only [placeOperands, BitVec.or_zero]
  have e4 := or_toNat_of_low (hi := BitVec.ofNat 16 y.toNat <<< 4) (lo := BitVec.ofNat 16 n.toNat <<< 0) 4
    (by rw [e2]; omega) (by rw [e1]; omega)
  have e5 := or_toNat_of_low (hi := BitVec.ofNat 16 x.toNat <<< 8)
    (lo := BitVec.ofNat 16 y.toNat <<< 4 ||| BitVec.ofNat 16 n.toNat <<< 0) 8
    (by rw [e3]; omega) (by rw [e4, e2, e1]; omega)
  rw [packXYN_toNat, or_toNat_of_low 12 (by rw [e]; omega) (by rw [e5, e4, e3, e2, e1]; omega), e, e5, e4, e3, e2, e1]
  omega

/-- A low nibble put into a word that has it 0, under the fields X and Y. -/
theorem placeXY (o x y s : Nib) :
    (BitVec.ofNat 16 (o.toNat * 4096) ||| BitVec.ofNat 16 s.toNat) |||
        placeOperands [(8, 4), (4, 4)] [x.toNat, y.toNat] = (o ++ x ++ y ++ s : Word) := by
  rw [← placeXYN]
  simp only [placeOperands, BitVec.or_zero, BitVec.or_assoc, BitVec.shiftLeft_zero]
  rw [BitVec.or_comm (BitVec.ofNat 16 s.toNat), BitVec.or_assoc]

/-- A low byte put into a word that has it 0, under the field X. -/
theorem placeXS (o x : Nib) (s : Byte) :
    (BitVec.ofNat 16 (o.toNat * 4096) ||| BitVec.ofNat 16 s.toNat) ||| placeOperands [(8, 4)] [x.toNat] =
      (o ++ x ++ s : Word) := by
  rw [← placeXK]
  simp only [placeOperands, BitVec.or_zero, BitVec.or_assoc, BitVec.shiftLeft_zero]
  rw [BitVec.or_comm (BitVec.ofNat 16 s.toNat)]

/-- Well formed, and its word is its row's. -/
def OwnRow.Statement (i : Instr) : Prop :=
  i.wellFormed = true ∧ i.source.word = some (encode i)

/-- The family's statement from the row, the operands' fit and the word. -/
theorem ownRow_of {i : Instr} (r : Row) (hr : rowOf i.rowNumber = some r)
    (hf : operandsFit r.format.fields i.operands = true)
    (hw : r.value ||| placeOperands r.format.fields i.operands = encode i) : OwnRow.Statement i := by
  simp [OwnRow.Statement, Instr.wellFormed, Source.wellFormed, Source.word, Instr.source, hr, hf, hw]

theorem fitA (nnn : Imm12) : operandsFit [(0, 12)] [nnn.toNat] = true := by
  simp only [operandsFit, Bool.and_true, decide_eq_true_eq]; exact nnn.isLt
theorem fitXK (x : Nib) (nn : Byte) : operandsFit [(8, 4), (0, 8)] [x.toNat, nn.toNat] = true := by
  simp only [operandsFit, Bool.and_true, Bool.and_eq_true, decide_eq_true_eq]; exact ⟨x.isLt, nn.isLt⟩
theorem fitXY (x y : Nib) : operandsFit [(8, 4), (4, 4)] [x.toNat, y.toNat] = true := by
  simp only [operandsFit, Bool.and_true, Bool.and_eq_true, decide_eq_true_eq]; exact ⟨x.isLt, y.isLt⟩
theorem fitXYN (x y n : Nib) : operandsFit [(8, 4), (4, 4), (0, 4)] [x.toNat, y.toNat, n.toNat] = true := by
  simp only [operandsFit, Bool.and_true, Bool.and_eq_true, decide_eq_true_eq]; exact ⟨x.isLt, y.isLt, n.isLt⟩
theorem fitXS (x : Nib) : operandsFit [(8, 4)] [x.toNat] = true := by
  simp only [operandsFit, Bool.and_true, decide_eq_true_eq]; exact x.isLt

theorem OwnRow.cls : OwnRow.Statement .cls :=
  ownRow_of ⟨"CLS", .o, 0xFFFF#16, 0x00E0#16⟩ rfl rfl rfl
theorem OwnRow.ret : OwnRow.Statement .ret :=
  ownRow_of ⟨"RET", .o, 0xFFFF#16, 0x00EE#16⟩ rfl rfl rfl
theorem OwnRow.jp (nnn : Imm12) : OwnRow.Statement (.jp nnn) :=
  ownRow_of ⟨"JP", .a, 0xF000#16, 0x1000#16⟩ rfl (fitA nnn) (placeA 0x1#4 nnn)
theorem OwnRow.call (nnn : Imm12) : OwnRow.Statement (.call nnn) :=
  ownRow_of ⟨"CALL", .a, 0xF000#16, 0x2000#16⟩ rfl (fitA nnn) (placeA 0x2#4 nnn)
theorem OwnRow.seImm (x : Nib) (nn : Byte) : OwnRow.Statement (.seImm x nn) :=
  ownRow_of ⟨"SE.imm", .xk, 0xF000#16, 0x3000#16⟩ rfl (fitXK x nn) (placeXK 0x3#4 x nn)
theorem OwnRow.sneImm (x : Nib) (nn : Byte) : OwnRow.Statement (.sneImm x nn) :=
  ownRow_of ⟨"SNE.imm", .xk, 0xF000#16, 0x4000#16⟩ rfl (fitXK x nn) (placeXK 0x4#4 x nn)
theorem OwnRow.seReg (x y : Nib) : OwnRow.Statement (.seReg x y) :=
  ownRow_of ⟨"SE.reg", .xy, 0xF00F#16, 0x5000#16⟩ rfl (fitXY x y) (placeXY 0x5#4 x y 0x0#4)
theorem OwnRow.ldImm (x : Nib) (nn : Byte) : OwnRow.Statement (.ldImm x nn) :=
  ownRow_of ⟨"LD.imm", .xk, 0xF000#16, 0x6000#16⟩ rfl (fitXK x nn) (placeXK 0x6#4 x nn)
theorem OwnRow.addImm (x : Nib) (nn : Byte) : OwnRow.Statement (.addImm x nn) :=
  ownRow_of ⟨"ADD.imm", .xk, 0xF000#16, 0x7000#16⟩ rfl (fitXK x nn) (placeXK 0x7#4 x nn)
theorem OwnRow.ldReg (x y : Nib) : OwnRow.Statement (.ldReg x y) :=
  ownRow_of ⟨"LD.reg", .xy, 0xF00F#16, 0x8000#16⟩ rfl (fitXY x y) (placeXY 0x8#4 x y 0x0#4)
theorem OwnRow.orReg (x y : Nib) : OwnRow.Statement (.orReg x y) :=
  ownRow_of ⟨"OR", .xy, 0xF00F#16, 0x8001#16⟩ rfl (fitXY x y) (placeXY 0x8#4 x y 0x1#4)
theorem OwnRow.andReg (x y : Nib) : OwnRow.Statement (.andReg x y) :=
  ownRow_of ⟨"AND", .xy, 0xF00F#16, 0x8002#16⟩ rfl (fitXY x y) (placeXY 0x8#4 x y 0x2#4)
theorem OwnRow.xorReg (x y : Nib) : OwnRow.Statement (.xorReg x y) :=
  ownRow_of ⟨"XOR", .xy, 0xF00F#16, 0x8003#16⟩ rfl (fitXY x y) (placeXY 0x8#4 x y 0x3#4)
theorem OwnRow.addReg (x y : Nib) : OwnRow.Statement (.addReg x y) :=
  ownRow_of ⟨"ADD.reg", .xy, 0xF00F#16, 0x8004#16⟩ rfl (fitXY x y) (placeXY 0x8#4 x y 0x4#4)
theorem OwnRow.sub (x y : Nib) : OwnRow.Statement (.sub x y) :=
  ownRow_of ⟨"SUB", .xy, 0xF00F#16, 0x8005#16⟩ rfl (fitXY x y) (placeXY 0x8#4 x y 0x5#4)
theorem OwnRow.shr (x y : Nib) : OwnRow.Statement (.shr x y) :=
  ownRow_of ⟨"SHR", .xy, 0xF00F#16, 0x8006#16⟩ rfl (fitXY x y) (placeXY 0x8#4 x y 0x6#4)
theorem OwnRow.shl (x y : Nib) : OwnRow.Statement (.shl x y) :=
  ownRow_of ⟨"SHL", .xy, 0xF00F#16, 0x800E#16⟩ rfl (fitXY x y) (placeXY 0x8#4 x y 0xE#4)
theorem OwnRow.sneReg (x y : Nib) : OwnRow.Statement (.sneReg x y) :=
  ownRow_of ⟨"SNE.reg", .xy, 0xF00F#16, 0x9000#16⟩ rfl (fitXY x y) (placeXY 0x9#4 x y 0x0#4)
theorem OwnRow.ldI (nnn : Imm12) : OwnRow.Statement (.ldI nnn) :=
  ownRow_of ⟨"LD.I", .a, 0xF000#16, 0xA000#16⟩ rfl (fitA nnn) (placeA 0xA#4 nnn)
theorem OwnRow.jpV0 (nnn : Imm12) : OwnRow.Statement (.jpV0 nnn) :=
  ownRow_of ⟨"JP.V0", .a, 0xF000#16, 0xB000#16⟩ rfl (fitA nnn) (placeA 0xB#4 nnn)
theorem OwnRow.rnd (x : Nib) (nn : Byte) : OwnRow.Statement (.rnd x nn) :=
  ownRow_of ⟨"RND", .xk, 0xF000#16, 0xC000#16⟩ rfl (fitXK x nn) (placeXK 0xC#4 x nn)
theorem OwnRow.drw (x y : Nib) (n : Nib) : OwnRow.Statement (.drw x y n) :=
  ownRow_of ⟨"DRW", .xyn, 0xF000#16, 0xD000#16⟩ rfl (fitXYN x y n) (placeXYN 0xD#4 x y n)
theorem OwnRow.skp (x : Nib) : OwnRow.Statement (.skp x) :=
  ownRow_of ⟨"SKP", .xs, 0xF0FF#16, 0xE09E#16⟩ rfl (fitXS x) (placeXS 0xE#4 x 0x9E#8)
theorem OwnRow.sknp (x : Nib) : OwnRow.Statement (.sknp x) :=
  ownRow_of ⟨"SKNP", .xs, 0xF0FF#16, 0xE0A1#16⟩ rfl (fitXS x) (placeXS 0xE#4 x 0xA1#8)
theorem OwnRow.ldVxDt (x : Nib) : OwnRow.Statement (.ldVxDt x) :=
  ownRow_of ⟨"LD.Vx.DT", .xs, 0xF0FF#16, 0xF007#16⟩ rfl (fitXS x) (placeXS 0xF#4 x 0x07#8)
theorem OwnRow.ldVxK (x : Nib) : OwnRow.Statement (.ldVxK x) :=
  ownRow_of ⟨"LD.Vx.K", .xs, 0xF0FF#16, 0xF00A#16⟩ rfl (fitXS x) (placeXS 0xF#4 x 0x0A#8)
theorem OwnRow.ldDt (x : Nib) : OwnRow.Statement (.ldDt x) :=
  ownRow_of ⟨"LD.DT", .xs, 0xF0FF#16, 0xF015#16⟩ rfl (fitXS x) (placeXS 0xF#4 x 0x15#8)
theorem OwnRow.ldSt (x : Nib) : OwnRow.Statement (.ldSt x) :=
  ownRow_of ⟨"LD.ST", .xs, 0xF0FF#16, 0xF018#16⟩ rfl (fitXS x) (placeXS 0xF#4 x 0x18#8)
theorem OwnRow.addI (x : Nib) : OwnRow.Statement (.addI x) :=
  ownRow_of ⟨"ADD.I", .xs, 0xF0FF#16, 0xF01E#16⟩ rfl (fitXS x) (placeXS 0xF#4 x 0x1E#8)
theorem OwnRow.ldF (x : Nib) : OwnRow.Statement (.ldF x) :=
  ownRow_of ⟨"LD.F", .xs, 0xF0FF#16, 0xF029#16⟩ rfl (fitXS x) (placeXS 0xF#4 x 0x29#8)
theorem OwnRow.ldB (x : Nib) : OwnRow.Statement (.ldB x) :=
  ownRow_of ⟨"LD.B", .xs, 0xF0FF#16, 0xF033#16⟩ rfl (fitXS x) (placeXS 0xF#4 x 0x33#8)
theorem OwnRow.ldStore (x : Nib) : OwnRow.Statement (.ldStore x) :=
  ownRow_of ⟨"LD.store", .xs, 0xF0FF#16, 0xF055#16⟩ rfl (fitXS x) (placeXS 0xF#4 x 0x55#8)
theorem OwnRow.ldLoad (x : Nib) : OwnRow.Statement (.ldLoad x) :=
  ownRow_of ⟨"LD.load", .xs, 0xF0FF#16, 0xF065#16⟩ rfl (fitXS x) (placeXS 0xF#4 x 0x65#8)

/-- Every instruction is well formed: the operand types of `Instr` are the field widths of R91. -/
theorem ownRow_all (i : Instr) : OwnRow.Statement i := by
  cases i
  case cls => apply OwnRow.cls
  case ret => apply OwnRow.ret
  case jp => apply OwnRow.jp
  case call => apply OwnRow.call
  case seImm => apply OwnRow.seImm
  case sneImm => apply OwnRow.sneImm
  case seReg => apply OwnRow.seReg
  case ldImm => apply OwnRow.ldImm
  case addImm => apply OwnRow.addImm
  case ldReg => apply OwnRow.ldReg
  case orReg => apply OwnRow.orReg
  case andReg => apply OwnRow.andReg
  case xorReg => apply OwnRow.xorReg
  case addReg => apply OwnRow.addReg
  case sub => apply OwnRow.sub
  case shr => apply OwnRow.shr
  case shl => apply OwnRow.shl
  case sneReg => apply OwnRow.sneReg
  case ldI => apply OwnRow.ldI
  case jpV0 => apply OwnRow.jpV0
  case rnd => apply OwnRow.rnd
  case drw => apply OwnRow.drw
  case skp => apply OwnRow.skp
  case sknp => apply OwnRow.sknp
  case ldVxDt => apply OwnRow.ldVxDt
  case ldVxK => apply OwnRow.ldVxK
  case ldDt => apply OwnRow.ldDt
  case ldSt => apply OwnRow.ldSt
  case addI => apply OwnRow.addI
  case ldF => apply OwnRow.ldF
  case ldB => apply OwnRow.ldB
  case ldStore => apply OwnRow.ldStore
  case ldLoad => apply OwnRow.ldLoad

theorem Instr_wellFormed_all (i : Instr) : i.wellFormed = true :=
  (ownRow_all i).1

end Sys2Proof.Laws
end

