-- ==== Sys2Proof/Laws/Step.lean ====
section
/-! SUPPORT. What a step and the instructions with more than one outcome can do: one inversion lemma for each. -/

namespace Sys2Proof.Machine

/-! The step -/

/-- While a key wait lasts, a step is the waiting cycle. -/
theorem step_waiting {s : State} (h : s.kwActive = true) : step s = waitCycle s := by
  simp [step, h]

/-- A condition of the fetch is the step's. -/
theorem step_stopped {s : State} {f : Fault} (hk : s.kwActive = false) (hf : s.fetchFault = some f) :
    step s = .fault f := by
  simp [step, hk, hf, raise]

/-- A fetched instruction is executed with its word latched. -/
theorem step_decoded {s : State} {i : Instr} (hk : s.kwActive = false) (hf : s.fetchFault = none)
    (hd : decode s.fetchedWord = some i) : step s = exec i (s.latch s.fetchedWord) := by
  simp [step, hk, hf, hd]

/-- A fetched word that is no instruction is passed over. -/
theorem step_unknown {s : State} (hk : s.kwActive = false) (hf : s.fetchFault = none)
    (hd : decode s.fetchedWord = none) : step s = unknownWord s.fetchedWord (s.latch s.fetchedWord) := by
  simp [step, hk, hf, hd]

/-- A step answers a next state in three ways only. -/
theorem step_eq_next {s t : State} (h : step s = .next t) :
    (s.kwActive = true ∧ waitCycle s = .next t) ∨
    (s.kwActive = false ∧ s.fetchFault = none ∧
      ∃ i, decode s.fetchedWord = some i ∧ exec i (s.latch s.fetchedWord) = .next t) ∨
    (s.kwActive = false ∧ s.fetchFault = none ∧ decode s.fetchedWord = none ∧
      t = State.report { (s.latch s.fetchedWord).nextPc with unknownSeen := true } (.unknownOpcode s.fetchedWord)) := by
  cases hk : s.kwActive with
  | true => exact .inl ⟨rfl, by rwa [step_waiting hk] at h⟩
  | false =>
    cases hf : s.fetchFault with
    | some f =>
      rw [step_stopped hk hf] at h
      cases h
    | none =>
      cases hd : decode s.fetchedWord with
      | some i => exact .inr (.inl ⟨rfl, rfl, i, rfl, by rwa [step_decoded hk hf hd] at h⟩)
      | none =>
        rw [step_unknown hk hf hd, unknownWord, finish_eq_next] at h
        exact .inr (.inr ⟨rfl, rfl, rfl, h.symm⟩)

/-! Instructions with more than one outcome -/

/-- The waiting cycle goes on waiting or stores a pressed key and ends the wait; it never ends in a condition. -/
theorem waitCycle_eq_next {s t : State} (h : waitCycle s = .next t) :
    ((∀ k, s.keyDown k = false) ∧ t = s.report (.waitingForKey s.kwReg)) ∨
    ∃ k, s.keyDown k = true ∧ t = State.report { s.storeKey s.kwReg k with kwActive := false } (.ok false) := by
  unfold waitCycle at h
  cases hs : s.selectKey with
  | none =>
    rw [hs, finish_eq_next] at h
    exact .inl ⟨State.selectKey_eq_none.mp hs, h.symm⟩
  | some k =>
    rw [hs, finish_eq_next] at h
    exact .inr ⟨k, State.selectKey_pressed hs, h.symm⟩

/-- FX0A enters the key wait or stores a pressed key. -/
theorem execLdVxK_eq_next {x : Nib} {s t : State} (h : execLdVxK x s = .next t) :
    ((∀ k, s.keyDown k = false) ∧
      t = State.report { s with kwActive := true, kwReg := x } (.waitingForKey x)) ∨
    ∃ k, s.keyDown k = true ∧ t = (s.storeKey x k).report (.ok false) := by
  unfold execLdVxK at h
  cases hs : s.selectKey with
  | none =>
    rw [hs, finish_eq_next] at h
    exact .inl ⟨State.selectKey_eq_none.mp hs, h.symm⟩
  | some k =>
    rw [hs, finish_eq_next] at h
    exact .inr ⟨k, State.selectKey_pressed hs, h.symm⟩

/-- A key skip completes exactly on a key 0 to 15. -/
theorem skipOnKey_eq_next {x : Nib} {wanted : Bool} {s t : State} (h : skipOnKey x wanted s = .next t) :
    ∃ hk : (s.getV x).toNat < 16, t = (s.skipIf (s.key[(s.getV x).toNat] == wanted)).report (.ok false) := by
  unfold skipOnKey at h
  cases hs : s.namedKey (s.getV x) with
  | error f =>
    rw [hs] at h
    exact absurd h raise_ne_next
  | ok down =>
    rw [hs] at h
    obtain ⟨hk, rfl⟩ := State.namedKey_eq_ok.mp hs
    exact ⟨hk, (finish_eq_next.mp h).symm⟩

/-- A return completes exactly with an entry held. -/
theorem execRet_eq_next {s t : State} (h : execRet s = .next t) :
    ∃ hs : 0 < s.sp.val, t = State.report
      { s with sp := ⟨s.sp.val - 1, by omega⟩, pc := s.stack[s.sp.val - 1]'(by omega) + 2#16 } (.ok false) := by
  unfold execRet at h
  cases hp : s.pop with
  | error f =>
    rw [hp] at h
    exact absurd h raise_ne_next
  | ok r =>
    obtain ⟨a, u⟩ := r
    rw [hp] at h
    obtain ⟨hs, rfl, rfl⟩ := State.pop_eq_ok.mp hp
    exact ⟨hs, (finish_eq_next.mp h).symm⟩

/-- A call completes exactly with fewer than 16 entries held. -/
theorem execCall_eq_next {nnn : Imm12} {s t : State} (h : execCall nnn s = .next t) :
    ∃ hs : s.sp.val < 16, t = State.report
      { s with stack := s.stack.set s.sp.val s.pc hs, sp := ⟨s.sp.val + 1, by omega⟩, pc := zextAddr nnn }
      (.ok false) := by
  unfold execCall at h
  cases hp : s.push s.pc with
  | error f =>
    rw [hp] at h
    exact absurd h raise_ne_next
  | ok u =>
    rw [hp] at h
    obtain ⟨hs, rfl⟩ := State.push_eq_ok.mp hp
    exact ⟨hs, (finish_eq_next.mp h).symm⟩

/-- A drawing completes exactly when it reads no byte or its last byte exists. -/
theorem execDrw_eq_next {x y n : Nib} {s t : State} (h : execDrw x y n s = .next t) :
    (n.toNat = 0 ∨ s.i.toNat + n.toNat ≤ 0x1000) ∧
      t = (s.showCanvas (s.drawSprite x y n)).nextPc.report (.ok true) := by
  rw [execDrw, checkRange_eq_next, finish_eq_next] at h
  exact ⟨h.1, h.2.symm⟩

/-- FX33 completes exactly when its three bytes exist. -/
theorem execLdB_eq_next {x : Nib} {s t : State} (h : execLdB x s = .next t) :
    s.i.toNat + 3 ≤ 0x1000 ∧
      t = (s.writeBytes s.i.toNat (decimalDigits (s.getV x))).nextPc.report (.ok false) := by
  rw [execLdB, checkRange_eq_next, finish_eq_next] at h
  exact ⟨by omega, h.2.symm⟩

/-- FX55 completes exactly when its x + 1 bytes exist. -/
theorem execLdStore_eq_next {x : Nib} {s t : State} (h : execLdStore x s = .next t) :
    s.i.toNat + (x.toNat + 1) ≤ 0x1000 ∧
      t = (s.writeBytes s.i.toNat (s.firstRegs x)).nextPc.report (.ok false) := by
  rw [execLdStore, checkRange_eq_next, finish_eq_next] at h
  exact ⟨by omega, h.2.symm⟩

/-- FX65 completes exactly when its x + 1 bytes exist. -/
theorem execLdLoad_eq_next {x : Nib} {s t : State} (h : execLdLoad x s = .next t) :
    s.i.toNat + (x.toNat + 1) ≤ 0x1000 ∧ t = (s.loadRegs x s.i.toNat).nextPc.report (.ok false) := by
  rw [execLdLoad, checkRange_eq_next, finish_eq_next] at h
  exact ⟨by omega, h.2.symm⟩

/-- A range-checked body that ends in no condition ends in one exactly when an address does not exist. -/
theorem checkRange_eq_fault {base n : Nat} {body : Out} {f : Fault} (hb : ∀ g, body ≠ .fault g) :
    checkRange base n body = .fault f ↔
      n ≠ 0 ∧ 0x1000 < base + n ∧ f = .addressOutOfRange (max base 0x1000) := by
  by_cases h : n ≠ 0 ∧ 0x1000 < base + n
  · rw [checkRange_out h.1 h.2]
    simp [h.1, h.2, eq_comm]
  · rw [checkRange_in (by omega)]
    constructor
    · exact fun e => absurd e (hb f)
    · exact fun e => absurd ⟨e.1, e.2.1⟩ h

/-! What no instruction and no step writes -/

/-- No instruction writes the keys, IR, the sticky marks or the parameters. -/
theorem exec_keeps {i : Instr} {s t : State} (h : exec i s = .next t) :
    t.key = s.key ∧ t.ir = s.ir ∧ t.faulted = s.faulted ∧ t.unknownSeen = s.unknownSeen ∧ t.params = s.params := by
  cases i with
  | ldVxK x => rcases execLdVxK_eq_next h with ⟨-, rfl⟩ | ⟨k, -, rfl⟩ <;> simp [State.report, State.storeKey_eq]
  | skp x => obtain ⟨-, rfl⟩ := skipOnKey_eq_next h; simp
  | sknp x => obtain ⟨-, rfl⟩ := skipOnKey_eq_next h; simp
  | ret => obtain ⟨-, rfl⟩ := execRet_eq_next h; simp
  | call nnn => obtain ⟨-, rfl⟩ := execCall_eq_next h; simp
  | drw x y n => obtain ⟨-, rfl⟩ := execDrw_eq_next h; simp
  | ldB x => obtain ⟨-, rfl⟩ := execLdB_eq_next h; rw [State.writeBytes_eq]; simp
  | ldStore x => obtain ⟨-, rfl⟩ := execLdStore_eq_next h; rw [State.writeBytes_eq]; simp
  | ldLoad x => obtain ⟨-, rfl⟩ := execLdLoad_eq_next h; simp
  | sub x y =>
    rw [exec, execSub, finish_eq_next, State.writeFlagged_eq] at h
    subst h; simp
  | shr x y =>
    rw [exec, execShr, finish_eq_next, State.writeFlagged_eq] at h
    subst h; simp
  | shl x y =>
    rw [exec, execShl, finish_eq_next, State.writeFlagged_eq] at h
    subst h; simp
  | _ =>
    simp only [exec, execCls, execJp, execSeImm, execSneImm, execSeReg, execSneReg, execLdImm, execAddImm, execLdReg,
      execOr, execAnd, execXor, execAddReg, execLdI, execJpV0, execRnd, execLdVxDt, execLdDt, execLdSt, execAddI,
      execLdF, writeReg, skipOn, State.writeThenFlag, finish_eq_next] at h
    subst h
    simp

/-- No step that goes on writes the keys, the mark of a fault or the parameters. -/
theorem step_keeps {s t : State} (h : step s = .next t) :
    t.key = s.key ∧ t.faulted = s.faulted ∧ t.params = s.params := by
  rcases step_eq_next h with ⟨-, hw⟩ | ⟨-, -, i, -, he⟩ | ⟨-, -, -, rfl⟩
  · rcases waitCycle_eq_next hw with ⟨-, rfl⟩ | ⟨k, -, rfl⟩ <;> simp [State.report, State.storeKey_eq]
  · have hk := exec_keeps he
    exact ⟨hk.1, hk.2.2.1, hk.2.2.2.2⟩
  · simp

/-! Runs -/

/-- The state of a run after one more host operation. -/
theorem runState_succ {params : Config.Params} {rom : List Byte} {ops : List HostOp} {k : Nat} {op : HostOp}
    (h : ops[k]? = some op) :
    runState params rom ops (k + 1) = (hostOp op (runState params rom ops k)).2 := by
  have happ : ∀ (l : List HostOp) (s : State), hostRun (l ++ [op]) s = (hostOp op (hostRun l s)).2 := by
    intro l
    induction l with
    | nil => exact fun s => rfl
    | cons a rest ih => exact fun s => ih _
  obtain ⟨hk, rfl⟩ := List.getElem?_eq_some_iff.mp h
  simp only [runState, State.reachedBy, List.take_succ_eq_append_getElem hk]
  exact happ _ _

/-- After all its operations a run stays where it is. -/
theorem runState_of_length_le {params : Config.Params} {rom : List Byte} {ops : List HostOp} {n : Nat}
    (h : ops.length ≤ n) : runState params rom ops n = runState params rom ops ops.length := by
  simp [runState, List.take_of_length_le h]

end Sys2Proof.Machine
end

