-- ==== Sys2Proof/Machine/Assembler.lean ====
section
/-! DEFINITION. The assembler of spec/30_encoding.md R106 and R107, over lines already split into a row of R100 and its
operands: labels, the directives DW and DB, and the shifts' omitted second operand. -/

namespace Sys2Proof.Machine

/-- An operand as written: a number, or a label where `nnn` may stand (R106). -/
inductive AsmOperand where
  | num (n : Nat)
  | label (name : String)
deriving DecidableEq, Repr

/-- One line (R106). -/
inductive AsmLine where
  /-- `label:` names the address of the next word. -/
  | label (name : String)
  /-- An instruction: its row in R100 and its operands. -/
  | op (row : Nat) (operands : List AsmOperand)
  /-- `DW w` places a 16-bit word big-endian. -/
  | dw (w : Nat)
  /-- `DB b, …` places bytes. -/
  | db (bytes : List Nat)
deriving DecidableEq, Repr

/-- How many bytes a line places. -/
def AsmLine.size : AsmLine → Nat
  | .label _ => 0
  | .op _ _ => 2
  | .dw _ => 2
  | .db bytes => bytes.length

/-- The labels of a program whose first line stands at address `at_`, with the addresses they name. -/
def asmLabels (at_ : Nat) : List AsmLine → List (String × Nat)
  | [] => []
  | .label name :: rest => (name, at_) :: asmLabels at_ rest
  | line :: rest => asmLabels (at_ + line.size) rest

/-- The value of an operand. -/
def AsmOperand.value (labels : List (String × Nat)) : AsmOperand → Option Nat
  | .num n => some n
  | .label name => labels.lookup name

/-- The values of operands, if every one has one. -/
def operandValues (labels : List (String × Nat)) : List AsmOperand → Option (List Nat)
  | [] => some []
  | o :: rest =>
    match o.value labels, operandValues labels rest with
    | some n, some ns => some (n :: ns)
    | _, _ => none

/-- `SHR Vx` and `SHL Vx` may omit `, Vy`, which then assembles as y = 0 (R106); the rows are 16 and 17. -/
def completeShift (row : Nat) (operands : List Nat) : List Nat :=
  if (row = 16 ∨ row = 17) ∧ operands.length = 1 then operands ++ [0] else operands

/-- The bytes of one line, or none if it is ill-formed. -/
def AsmLine.bytes (labels : List (String × Nat)) : AsmLine → Option (List Byte)
  | .label _ => some []
  | .op row operands =>
    match operandValues labels operands with
    | some ns =>
      match (Source.word { row := row, operands := completeShift row ns }) with
      | some w => some (bytesOfWord w)
      | none => none
    | none => none
  | .dw w => if w < 2 ^ 16 then some (bytesOfWord (BitVec.ofNat 16 w)) else none
  | .db bytes => if bytes.all (· < 2 ^ 8) then some (bytes.map (BitVec.ofNat 8)) else none

/-- The bytes of the lines in order. -/
def asmBytes (labels : List (String × Nat)) : List AsmLine → Option (List Byte)
  | [] => some []
  | line :: rest =>
    match line.bytes labels, asmBytes labels rest with
    | some a, some b => some (a ++ b)
    | _, _ => none

/-- The ROM of a program whose first line stands at 0x200. -/
def assemble (lines : List AsmLine) : Option (List Byte) :=
  asmBytes (asmLabels 0x200 lines) lines

end Sys2Proof.Machine
end

