-- ==== Sys2Proof/Machine/AsmText.lean ====
section
/-! DEFINITION. The text of an assembly program (spec/30_encoding.md R106, the syntax column of R100), read into the
lines of Machine/Assembler.lean (log entry 22). -/

namespace Sys2Proof.Machine

/-- One operand of a syntax form of R100. -/
inductive Slot where
  /-- `Vx` or `Vy`. -/
  | reg
  /-- `nn` or `n`: a number. -/
  | imm
  /-- `nnn`: a number or a label. -/
  | addr
  /-- A fixed operand name. -/
  | fixed (name : String)
deriving DecidableEq, Repr

/-- A syntax form: the row of R100, the mnemonic and the operands. -/
structure SyntaxForm where
  row : Nat
  mnemonic : String
  slots : List Slot
deriving DecidableEq, Repr

/-- Rows 1 to 18, the shifts with and without their second operand. -/
def syntaxFormsA : List SyntaxForm :=
  [⟨1, "CLS", []⟩, ⟨2, "RET", []⟩, ⟨3, "JP", [.addr]⟩, ⟨4, "CALL", [.addr]⟩, ⟨5, "SE", [.reg, .imm]⟩,
   ⟨6, "SNE", [.reg, .imm]⟩, ⟨7, "SE", [.reg, .reg]⟩, ⟨8, "LD", [.reg, .imm]⟩, ⟨9, "ADD", [.reg, .imm]⟩] ++
  [⟨10, "LD", [.reg, .reg]⟩, ⟨11, "OR", [.reg, .reg]⟩, ⟨12, "AND", [.reg, .reg]⟩, ⟨13, "XOR", [.reg, .reg]⟩,
   ⟨14, "ADD", [.reg, .reg]⟩, ⟨15, "SUB", [.reg, .reg]⟩, ⟨16, "SHR", [.reg, .reg]⟩, ⟨16, "SHR", [.reg]⟩,
   ⟨17, "SHL", [.reg, .reg]⟩, ⟨17, "SHL", [.reg]⟩, ⟨18, "SNE", [.reg, .reg]⟩]

/-- Rows 19 to 33. -/
def syntaxFormsB : List SyntaxForm :=
  [⟨19, "LD", [.fixed "I", .addr]⟩, ⟨20, "JP", [.fixed "V0", .addr]⟩, ⟨21, "RND", [.reg, .imm]⟩,
   ⟨22, "DRW", [.reg, .reg, .imm]⟩, ⟨23, "SKP", [.reg]⟩, ⟨24, "SKNP", [.reg]⟩, ⟨25, "LD", [.reg, .fixed "DT"]⟩,
   ⟨26, "LD", [.reg, .fixed "K"]⟩] ++
  [⟨27, "LD", [.fixed "DT", .reg]⟩, ⟨28, "LD", [.fixed "ST", .reg]⟩, ⟨29, "ADD", [.fixed "I", .reg]⟩,
   ⟨30, "LD", [.fixed "F", .reg]⟩, ⟨31, "LD", [.fixed "B", .reg]⟩, ⟨32, "LD", [.fixed "[I]", .reg]⟩,
   ⟨33, "LD", [.reg, .fixed "[I]"]⟩]

/-- The sixteen digits, each at the place of its value. -/
def digitNames : List Char :=
  "0123456789ABCDEF".toList

/-- The number a string of digits names in positional notation, the base being how many digits there are to choose
from; none at a character that is not one of them. A letter digit may be small. -/
def readDigits (digits : List Char) (cs : List Char) : Option Nat :=
  cs.foldl (fun value c => value.bind fun n => (digits.idxOf? c.toUpper).map (n * digits.length + ·)) (some 0)

/-- A number: hexadecimal with `0x`, or decimal (R106). -/
def readNumber : List Char → Option Nat
  | [] => none
  | ['0', 'x'] => none
  | '0' :: 'x' :: rest => readDigits digitNames rest
  | cs => readDigits (digitNames.take 10) cs

/-- `V0` to `VF` (R106). -/
def readRegister : List Char → Option Nat
  | ['V', c] => readDigits digitNames [c]
  | _ => none

/-- A label name: letters, digits and underscores, not starting with a digit. -/
def isLabelName (cs : List Char) : Bool :=
  match cs with
  | [] => false
  | c :: _ => !c.isDigit && cs.all fun d => d.isAlphanum || d == '_'

/-- An operand read by a slot: none if it does not fit, else the operand it stands for, if any. -/
def Slot.read (slot : Slot) (cs : List Char) : Option (List AsmOperand) :=
  match slot with
  | .reg => (readRegister cs).map fun n => [.num n]
  | .imm => (readNumber cs).map fun n => [.num n]
  | .addr =>
    match readNumber cs with
    | some n => some [.num n]
    | none => if isLabelName cs then some [.label (String.ofList cs)] else none
  | .fixed name => if cs = name.toList then some [] else none

/-- The operands read by the slots of a form, one each. -/
def readSlots : List Slot → List (List Char) → Option (List AsmOperand)
  | [], [] => some []
  | slot :: slots, cs :: rest =>
    match slot.read cs, readSlots slots rest with
    | some a, some b => some (a ++ b)
    | _, _ => none
  | _, _ => none

/-- Spaces dropped at both ends. -/
def trimSpaces (cs : List Char) : List Char :=
  ((cs.dropWhile Char.isWhitespace).reverse.dropWhile Char.isWhitespace).reverse

/-- The parts between separators. -/
def splitAtChar (sep : Char) : List Char → List (List Char)
  | [] => [[]]
  | c :: rest =>
    match splitAtChar sep rest with
    | [] => [[c]]
    | part :: parts => if c = sep then [] :: part :: parts else (c :: part) :: parts

/-- The numbers of a directive. -/
def readNumbers : List (List Char) → Option (List Nat)
  | [] => some []
  | cs :: rest =>
    match readNumber cs, readNumbers rest with
    | some n, some ns => some (n :: ns)
    | _, _ => none

/-- An instruction or a directive: its mnemonic and its operands. -/
def readStatement (mnemonic : List Char) (operands : List (List Char)) : Option AsmLine :=
  if mnemonic = "DW".toList then
    match readNumbers operands with
    | some [w] => some (.dw w)
    | _ => none
  else if mnemonic = "DB".toList then
    match readNumbers operands with
    | some (b :: bs) => some (.db (b :: bs))
    | _ => none
  else
    (syntaxFormsA ++ syntaxFormsB).findSome? fun form =>
      if mnemonic = form.mnemonic.toList then (readSlots form.slots operands).map (.op form.row) else none

/-- What follows a label, or a whole line without one: nothing, or one statement. -/
def readRest (cs : List Char) : Option (List AsmLine) :=
  match trimSpaces cs with
  | [] => some []
  | text =>
    let args := trimSpaces (text.dropWhile fun c => !c.isWhitespace)
    let operands := if args = [] then [] else (splitAtChar ',' args).map trimSpaces
    (readStatement (text.takeWhile fun c => !c.isWhitespace) operands).map fun line => [line]

/-- A line: `;` starts a comment, `label:` may stand first. -/
def readLine (cs : List Char) : Option (List AsmLine) :=
  match splitAtChar ':' (cs.takeWhile (· != ';')) with
  | [rest] => readRest rest
  | [name, rest] =>
    if isLabelName (trimSpaces name) then
      (readRest rest).map fun lines => .label (String.ofList (trimSpaces name)) :: lines
    else none
  | _ => none

/-- The lines of a program's text, in order. -/
def readProgram : List String → Option (List AsmLine)
  | [] => some []
  | line :: rest =>
    match readLine line.toList, readProgram rest with
    | some a, some b => some (a ++ b)
    | _, _ => none

/-- The ROM of a program's text, its first line standing at 0x200; none if a line is ill-formed. -/
def assembleText (text : List String) : Option (List Byte) :=
  match readProgram text with
  | some lines => assemble lines
  | none => none

end Sys2Proof.Machine
end

