-- ==== Sys2Proof/Tests/Slice0.lean ====
section
/-! SUPPORT. The model's own tests: the smoke test of the well-formedness checks, words written out from the encodings
of spec/30_encoding.md, the vectors of spec/95_test_vectors.md, and a witness for the hypotheses of each obligation. -/

namespace Sys2Proof.Tests

open Sys2Proof.Machine

/-! Well-formedness: one ill-formed line for each check -/

theorem test_wellFormed_accepts : Source.wellFormed ⟨22, [15, 15, 15]⟩ = true ∧ Source.word ⟨22, [1, 2, 5]⟩ = some 0xD125#16 := by
  decide

/-- The row exists: R100 has rows 1 to 33. -/
theorem test_wellFormed_row : Source.wellFormed ⟨0, []⟩ = false ∧ Source.wellFormed ⟨34, []⟩ = false := by decide

/-- As many operands as the format has fields (R92). -/
theorem test_wellFormed_operands :
    Source.wellFormed ⟨1, [0]⟩ = false ∧ Source.wellFormed ⟨5, [1]⟩ = false ∧ Source.wellFormed ⟨14, [1, 2, 3]⟩ = false := by
  decide

/-- Each operand fits its field (R91): x, y and n below 16, nn below 256, nnn below 4096. -/
theorem test_wellFormed_width :
    Source.wellFormed ⟨23, [16]⟩ = false ∧ Source.wellFormed ⟨14, [0, 16]⟩ = false ∧
      Source.wellFormed ⟨22, [0, 0, 16]⟩ = false ∧ Source.wellFormed ⟨8, [0, 256]⟩ = false ∧
      Source.wellFormed ⟨3, [4096]⟩ = false := by
  decide

/-- An ill-formed line has no word. -/
theorem test_source_refused : Source.word ⟨8, [0, 256]⟩ = none ∧ Source.word ⟨34, []⟩ = none := by decide

/-! Decoding: every constructor's word written out from R100 -/

theorem test_decode_display_flow :
    decodeTableWord 16 0x00E0 = some .cls ∧ decodeTableWord 16 0x00EE = some .ret ∧
      decodeTableWord 16 0x1ABC = some (.jp 0xABC#12) ∧ decodeTableWord 16 0x2ABC = some (.call 0xABC#12) ∧
      decodeTableWord 16 0xB123 = some (.jpV0 0x123#12) ∧ decodeTableWord 16 0xD125 = some (.drw 0x1#4 0x2#4 0x5#4) := by
  decide

theorem test_decode_skips :
    decodeTableWord 16 0x3A5C = some (.seImm 0xA#4 0x5C#8) ∧ decodeTableWord 16 0x4A5C = some (.sneImm 0xA#4 0x5C#8) ∧
      decodeTableWord 16 0x5AB0 = some (.seReg 0xA#4 0xB#4) ∧ decodeTableWord 16 0x9AB0 = some (.sneReg 0xA#4 0xB#4) ∧
      decodeTableWord 16 0xE59E = some (.skp 0x5#4) ∧ decodeTableWord 16 0xE5A1 = some (.sknp 0x5#4) := by
  decide

theorem test_decode_arithmetic :
    decodeTableWord 16 0x6A5C = some (.ldImm 0xA#4 0x5C#8) ∧ decodeTableWord 16 0x7A5C = some (.addImm 0xA#4 0x5C#8) ∧
      decodeTableWord 16 0x8120 = some (.ldReg 0x1#4 0x2#4) ∧ decodeTableWord 16 0x8121 = some (.orReg 0x1#4 0x2#4) ∧
      decodeTableWord 16 0x8122 = some (.andReg 0x1#4 0x2#4) ∧ decodeTableWord 16 0x8123 = some (.xorReg 0x1#4 0x2#4) ∧
      decodeTableWord 16 0x8124 = some (.addReg 0x1#4 0x2#4) ∧ decodeTableWord 16 0x8125 = some (.sub 0x1#4 0x2#4) ∧
      decodeTableWord 16 0x8126 = some (.shr 0x1#4 0x2#4) ∧ decodeTableWord 16 0x812E = some (.shl 0x1#4 0x2#4) ∧
      decodeTableWord 16 0xCA5C = some (.rnd 0xA#4 0x5C#8) := by
  decide

theorem test_decode_memory_timers :
    decodeTableWord 16 0xA123 = some (.ldI 0x123#12) ∧ decodeTableWord 16 0xF31E = some (.addI 0x3#4) ∧
      decodeTableWord 16 0xF329 = some (.ldF 0x3#4) ∧ decodeTableWord 16 0xF333 = some (.ldB 0x3#4) ∧
      decodeTableWord 16 0xF355 = some (.ldStore 0x3#4) ∧ decodeTableWord 16 0xF365 = some (.ldLoad 0x3#4) ∧
      decodeTableWord 16 0xF307 = some (.ldVxDt 0x3#4) ∧ decodeTableWord 16 0xF30A = some (.ldVxK 0x3#4) ∧
      decodeTableWord 16 0xF315 = some (.ldDt 0x3#4) ∧ decodeTableWord 16 0xF318 = some (.ldSt 0x3#4) := by
  decide

/-- The unknown words of C-1 to C-6 and N12, N13: neighbours of instructions. -/
theorem test_decode_unknown :
    [0x8127, 0x0123, 0x5121, 0xE1FF, 0xF1FF, 0x0000, 0x9121, 0x8008, 0x800F, 0x01E0].all
      (fun w => decodeTableWord 16 w == none) = true := by
  decide

/-! One step -/

/-- The state one step leaves when the word stands at PC. -/
def after (w : Nat) (s : State) : Option State :=
  match step (s.withFetchWord 16 w) with
  | .next t => some t
  | .fault _ => none
  | .refused _ => none

/-- The condition one step ends in when the word stands at PC. -/
def condition (w : Nat) (s : State) : Option Fault :=
  match step (s.withFetchWord 16 w) with
  | .next _ => none
  | .fault f => some f
  | .refused _ => none

/-- Vector C-1. -/
theorem test_step_unknown :
    (after 0x8127 State.reset).map (fun t => (t.result, t.pc)) = some (some (.unknownOpcode 0x8127#16), 0x202#16) := by
  decide

/-- Vectors C-7 and C-8. -/
theorem test_step_odd_pc :
    condition 0x6005 { State.reset with pc := 0x201#16 } = some (.misalignedFetch 0x201#16) ∧
      (after 0x6005 { State.reset with pc := 0x201#16, params := { defaultParams with oddPc := .fetch } }).map
        (fun t => (t.getV 0x0#4, t.pc)) = some (0x05#8, 0x203#16) := by
  decide

/-- Vectors C-9, C-10 and C-11. -/
theorem test_step_fetch_range :
    condition 0 { State.reset with pc := 0x1000#16 } = some (.addressOutOfRange 0x1000) ∧
      (after 0x6005 { State.reset with pc := 0xFFE#16 }).map (·.pc) = some 0x1000#16 ∧
      condition 0 { State.reset with pc := 0xFFF#16, params := { defaultParams with oddPc := .fetch } } =
        some (.addressOutOfRange 0x1000) := by
  decide

/-- Vector D-1. -/
theorem test_cls :
    (after 0x00E0 { State.reset with fb := BitVec.allOnes 2048 }).map (fun t => (t.fb, t.redraw, t.result)) =
      some (0#2048, true, some (.ok true)) := by
  decide +kernel

/-- A display with the given cells set. -/
def cells (l : List Nat) : BitVec 2048 :=
  l.foldl (fun b p => b ||| BitVec.twoPow 2048 p) 0#2048

/-- The cells of glyph 0 at (0, 0) (L1-6). -/
def glyphZero : BitVec 2048 :=
  cells [0, 1, 2, 3, 64, 67, 128, 131, 192, 195, 256, 257, 258, 259]

/-- Vectors D-3 and D-4. -/
theorem test_drw_glyph :
    (after 0xD015 State.reset).map (fun t => (t.fb, t.getV vf)) = some (glyphZero, 0x00#8) ∧
      (after 0xD015 { State.reset with fb := glyphZero }).map (fun t => (t.fb, t.getV vf)) = some (0#2048, 0x01#8) := by
  decide +kernel

/-- Vectors D-5 (wrap) and D-7 and D-8 (no byte, a byte too many). -/
theorem test_drw_wrap_and_range :
    (after 0xD011 ((({ State.reset with i := 0x300#16 }.setV 0x0#4 0x3C#8).setV 0x1#4 0x1F#8).writeByte 0x300 0x81#8)).map
        (·.fb) = some (cells [1987, 2044]) ∧
      (after 0xD010 ({ State.reset with i := 0xFFFF#16 }.setV vf 0x07#8)).map (·.getV vf) = some 0x00#8 ∧
      condition 0xD012 { State.reset with i := 0xFFF#16 } = some (.addressOutOfRange 0x1000) := by
  decide +kernel

/-- Vector J-3. -/
theorem test_jp : (after 0x1345 State.reset).map (·.pc) = some 0x345#16 := by decide

/-- Vectors J-5 and J-6. -/
theorem test_call :
    (after 0x2300 { State.reset with sp := 15 }).map (fun t => (t.pc, t.sp, t.stack[15])) =
        some (0x300#16, 16, 0x200#16) ∧
      condition 0x2300 { State.reset with sp := 16 } = some .stackOverflow := by
  decide

/-- Vectors J-8 and J-9. -/
theorem test_ret :
    (after 0x00EE { State.reset with pc := 0x300#16, sp := 1, stack := State.reset.stack.set 0 0xFFE#16 }).map
        (fun t => (t.pc, t.sp)) = some (0x1000#16, 0) ∧
      condition 0x00EE { State.reset with pc := 0x300#16 } = some .stackUnderflow := by
  decide

/-- Vector J-11. -/
theorem test_jpV0 : (after 0xBFFF (State.reset.setV 0x0#4 0xFF#8)).map (·.pc) = some 0x10FE#16 := by decide

/-- Vectors S-1 to S-4. -/
theorem test_skip_immediate :
    (after 0x3342 (State.reset.setV 0x3#4 0x42#8)).map (·.pc) = some 0x204#16 ∧
      (after 0x3343 (State.reset.setV 0x3#4 0x42#8)).map (·.pc) = some 0x202#16 ∧
      (after 0x4342 (State.reset.setV 0x3#4 0x42#8)).map (·.pc) = some 0x202#16 ∧
      (after 0x4300 (State.reset.setV 0x3#4 0x42#8)).map (·.pc) = some 0x204#16 := by
  decide

/-- Vectors S-5, S-6, S-8 and S-9. -/
theorem test_skip_registers :
    (after 0x5120 ((State.reset.setV 0x1#4 0x07#8).setV 0x2#4 0x07#8)).map (·.pc) = some 0x204#16 ∧
      (after 0x5120 ((State.reset.setV 0x1#4 0x07#8).setV 0x2#4 0x08#8)).map (·.pc) = some 0x202#16 ∧
      (after 0x9120 ((State.reset.setV 0x1#4 0x07#8).setV 0x2#4 0x08#8)).map (·.pc) = some 0x204#16 ∧
      (after 0x9110 State.reset).map (·.pc) = some 0x202#16 := by
  decide

/-- Vectors S-10, S-12 and S-14. -/
theorem test_skip_key :
    (after 0xE59E ((State.reset.setV 0x5#4 0x0A#8).setKey 0xA#4 true)).map (·.pc) = some 0x204#16 ∧
      (after 0xE5A1 (State.reset.setV 0x5#4 0x0A#8)).map (·.pc) = some 0x204#16 ∧
      condition 0xE59E (State.reset.setV 0x5#4 0x10#8) = some (.keyOutOfRange 0x10#8) := by
  decide

/-- Vector A-2. -/
theorem test_ldImm : (after 0x6FFF State.reset).map (fun t => (t.getV vf, t.pc)) = some (0xFF#8, 0x202#16) := by decide

/-- Vectors A-3 and A-4. -/
theorem test_addImm :
    (after 0x72FF (State.reset.setV 0x2#4 0x01#8)).map (fun t => (t.getV 0x2#4, t.getV vf)) = some (0x00#8, 0x00#8) ∧
      (after 0x7F01 (State.reset.setV vf 0xFF#8)).map (·.getV vf) = some 0x00#8 := by
  decide

/-- Vectors A-5 to A-8. -/
theorem test_logic :
    (after 0x8010 (State.reset.setV 0x1#4 0x55#8)).map (·.getV 0x0#4) = some 0x55#8 ∧
      (after 0x8011 (((State.reset.setV 0x0#4 0x0F#8).setV 0x1#4 0xF0#8).setV vf 0x07#8)).map
        (fun t => (t.getV 0x0#4, t.getV vf)) = some (0xFF#8, 0x07#8) ∧
      (after 0x8012 ((State.reset.setV 0x0#4 0x3C#8).setV 0x1#4 0x0F#8)).map (·.getV 0x0#4) = some 0x0C#8 ∧
      (after 0x8003 (State.reset.setV 0x0#4 0x3C#8)).map (·.getV 0x0#4) = some 0x00#8 := by
  decide

/-- Vectors A-9, A-10 and A-12. -/
theorem test_addReg :
    (after 0x8014 ((State.reset.setV 0x0#4 0xC8#8).setV 0x1#4 0x64#8)).map (fun t => (t.getV 0x0#4, t.getV vf)) =
        some (0x2C#8, 0x01#8) ∧
      (after 0x8014 ((State.reset.setV 0x0#4 0xC8#8).setV 0x1#4 0x37#8)).map (fun t => (t.getV 0x0#4, t.getV vf)) =
        some (0xFF#8, 0x00#8) ∧
      (after 0x8FF4 (State.reset.setV vf 0x90#8)).map (·.getV vf) = some 0x01#8 := by
  decide

/-- A state whose VF_WRITE_ORDER is flag_last. -/
def flagLastReset : State :=
  { State.reset with params := { defaultParams with vfOrder := .flagLast } }

/-- Vectors A-14 and A-15. -/
theorem test_sub :
    (after 0x8015 ((State.reset.setV 0x0#4 0x05#8).setV 0x1#4 0x0A#8)).map (fun t => (t.getV 0x0#4, t.getV vf)) =
        some (0xFB#8, 0x00#8) ∧
      (after 0x8015 ((State.reset.setV 0x0#4 0x0A#8).setV 0x1#4 0x0A#8)).map (fun t => (t.getV 0x0#4, t.getV vf)) =
        some (0x00#8, 0x00#8) := by
  decide

/-- Vectors A-17 and A-18. -/
theorem test_sub_into_vf :
    (after 0x8F05 ((State.reset.setV vf 0x0A#8).setV 0x0#4 0x03#8)).map (·.getV vf) = some 0x07#8 ∧
      (after 0x8F05 ((flagLastReset.setV vf 0x0A#8).setV 0x0#4 0x03#8)).map (·.getV vf) = some 0x01#8 := by
  decide

/-- Vectors A-19, A-23 and A-24. -/
theorem test_shr :
    (after 0x8346 ((State.reset.setV 0x3#4 0x05#8).setV 0x4#4 0xFF#8)).map (fun t => (t.getV 0x3#4, t.getV vf)) =
        some (0x02#8, 0x01#8) ∧
      (after 0x8F06 (State.reset.setV vf 0x02#8)).map (·.getV vf) = some 0x01#8 ∧
      (after 0x8F06 (flagLastReset.setV vf 0x02#8)).map (·.getV vf) = some 0x00#8 := by
  decide

/-- Vectors A-21, A-22 and A-25. -/
theorem test_shl :
    (after 0x830E (State.reset.setV 0x3#4 0x81#8)).map (fun t => (t.getV 0x3#4, t.getV vf)) = some (0x02#8, 0x01#8) ∧
      (after 0x830E (State.reset.setV 0x3#4 0x7F#8)).map (fun t => (t.getV 0x3#4, t.getV vf)) = some (0xFE#8, 0x00#8) ∧
      (after 0x8F0E (State.reset.setV vf 0x81#8)).map (·.getV vf) = some 0x02#8 := by
  decide

/-- Vectors A-26 and A-27, through the host's step. -/
theorem test_rnd :
    ((hostOp (.step 0xB7#8) (State.reset.withFetchWord 16 0xC40F)).2.getV 0x4#4) = 0x07#8 ∧
      ((hostOp (.step 0xFF#8) (State.reset.withFetchWord 16 0xC400)).2.getV 0x4#4) = 0x00#8 := by
  decide

/-- Vectors M-1, M-2, M-4 and M-5. -/
theorem test_index :
    (after 0xA2F0 State.reset).map (·.i) = some 0x2F0#16 ∧
      (after 0xF21E ({ State.reset with i := 0xFFE#16 }.setV 0x2#4 0x01#8)).map (fun t => (t.i, t.getV vf)) =
        some (0xFFF#16, 0x01#8) ∧
      (after 0xFF1E ({ State.reset with i := 0x100#16 }.setV vf 0x05#8)).map (fun t => (t.i, t.getV vf)) =
        some (0x105#16, 0x00#8) ∧
      (after 0xF21E ({ State.reset with i := 0xFFFF#16 }.setV 0x2#4 0x02#8)).map (fun t => (t.i, t.getV vf)) =
        some (0x001#16, 0x01#8) := by
  decide

/-- Vectors M-6 and M-7. -/
theorem test_ldF :
    (after 0xF729 (State.reset.setV 0x7#4 0x0A#8)).map (·.i) = some 0x032#16 ∧
      (after 0xF729 (State.reset.setV 0x7#4 0xFF#8)).map (·.i) = some 0x4FB#16 := by
  decide

/-- Vectors M-8 and M-11. -/
theorem test_ldB :
    (after 0xF133 ({ State.reset with i := 0x300#16 }.setV 0x1#4 0x9C#8)).map
        (fun t => (t.readByte 0x300, t.readByte 0x301, t.readByte 0x302)) = some (0x01#8, 0x05#8, 0x06#8) ∧
      condition 0xF133 ({ State.reset with i := 0xFFE#16 }.setV 0x1#4 0x9C#8) = some (.addressOutOfRange 0x1000) := by
  decide

/-- Vectors M-14 and M-15. -/
theorem test_ldStore :
    (after 0xF155 (({ State.reset with i := 0xFFE#16 }.setV 0x0#4 0xAB#8).setV 0x1#4 0xCD#8)).map
        (fun t => (t.readByte 0xFFE, t.readByte 0xFFF, t.i)) = some (0xAB#8, 0xCD#8, 0xFFE#16) ∧
      condition 0xF255 ({ State.reset with i := 0xFFE#16 }.setV 0x0#4 0x01#8) = some (.addressOutOfRange 0x1000) := by
  decide

/-- Vector M-16. -/
theorem test_ldLoad :
    (after 0xF265 ({ State.reset with i := 0x400#16 }.writeBytes 0x400 [0x01#8, 0x02#8, 0x03#8] |>.setV 0x3#4 0x09#8)).map
        (fun t => (t.getV 0x0#4, t.getV 0x2#4, t.getV 0x3#4)) = some (0x01#8, 0x03#8, 0x09#8) := by
  decide

/-- Vector M-18. -/
theorem test_store_next_word :
    (after 0xF055 ({ State.reset with i := 0x202#16 }.setV 0x0#4 0x12#8)).map (·.fetchedWord) = some 0x1200#16 := by
  decide

/-- Vectors T-1, T-7 and T-8. -/
theorem test_timers :
    (after 0xF307 { State.reset with dt := 0x20#8 }).map (·.getV 0x3#4) = some 0x20#8 ∧
      (after 0xF015 (State.reset.setV 0x0#4 0x03#8)).map (·.dt) = some 0x03#8 ∧
      (after 0xF218 (State.reset.setV 0x2#4 0x10#8)).map (fun t => (t.st, t.tone)) = some (0x10#8, true) := by
  decide

/-- Vectors T-2 and T-4. -/
theorem test_ldVxK :
    (after 0xF50A State.reset).map (fun t => (t.kwActive, t.kwReg, t.pc, t.result)) =
        some (true, 0x5#4, 0x200#16, some (.waitingForKey 0x5#4)) ∧
      (after 0xF50A ((State.reset.setKey 0x3#4 true).setKey 0x9#4 true)).map (fun t => (t.getV 0x5#4, t.pc)) =
        some (0x03#8, 0x202#16) := by
  decide

/-- The state after FX0A with x = 5 has found no key. -/
def waiting : State :=
  { (State.reset.withFetchWord 16 0xF50A).latch 0xF50A#16 with
    kwActive := true, kwReg := 0x5#4, result := some (.waitingForKey 0x5#4) }

/-- Vectors T-5 and T-6. -/
theorem test_waiting_cycle :
    (hostOp (.step 0x00#8) waiting).2 = waiting ∧
      (hostOp (.step 0x00#8) (waiting.setKey 0xC#4 true)).2.getV 0x5#4 = 0x0C#8 ∧
      (hostOp (.step 0x00#8) (waiting.setKey 0xC#4 true)).2.kwActive = false := by
  decide +kernel

/-! Host operations -/

/-- Vectors H-2, H-3 and H-4. -/
theorem test_tick :
    ({ State.reset with dt := 0x01#8, st := 0x05#8 }.doTick.dt, { State.reset with st := 0x05#8 }.doTick.st) =
        (0x00#8, 0x04#8) ∧
      { State.reset with dt := 0xFF#8 }.doTick.dt = 0xFE#8 ∧ { waiting with dt := 0x02#8 }.doTick.dt = 0x01#8 := by
  decide

/-- Vectors H-13 and H-14. -/
theorem test_load :
    (hostOp (.load []) State.reset) = (.loaded, State.reset) ∧
      ((hostOp (.load [0x12#8, 0x00#8]) { State.reset with pc := 0x300#16 }).2.readByte 0x200,
        (hostOp (.load [0x12#8, 0x00#8]) { State.reset with pc := 0x300#16 }).2.pc) = (0x12#8, 0x300#16) := by
  decide +kernel

/-- Vectors H-11 and H-12: whether a ROM fits. -/
theorem test_romFits : romFits 3584 = true ∧ romFits 3585 = false := by decide

/-- Vector H-17. -/
theorem test_reset : (hostOp .reset { waiting with sp := 3 }).2 = State.reset := by decide +kernel

/-- Program P5's last step: the overflow is reported, the mark set, nothing else changed. -/
theorem test_fatal_step :
    hostOp (.step 0x00#8) { State.reset.withFetchWord 16 0x2200 with sp := 16 } =
      (.result (.fatal .stackOverflow),
        { State.reset.withFetchWord 16 0x2200 with
          sp := 16, result := some (.fatal .stackOverflow), faulted := true }) := by
  decide +kernel

/-- The code column of R281 for the condition of vector J-6. -/
theorem test_condition_code :
    (Result.condition (.fatal .stackOverflow)).map (fun c => (c.code, c.fatal)) = some (2, true) ∧
      (Result.condition (.unknownOpcode 0x8127#16)).map (fun c => (c.code, c.fatal)) = some (4, false) ∧
      Result.condition (.ok true) = none := by
  decide

/-- Program P1's text gives its ROM. -/
theorem test_assemble_P1 :
    assembleText ["LD V0, 0x00 ; sum", "LD V1, 0x01", "loop: ADD V0, V1", "ADD V1, 0x01", "SE V1, 0x0B", "JP loop",
        "LD I, 0x300", "LD B, V0", "LD V2, [I]", "end: JP end"] =
      some ([0x60#8, 0x00#8, 0x61#8, 0x01#8, 0x80#8, 0x14#8, 0x71#8, 0x01#8, 0x31#8, 0x0B#8] ++
        [0x12#8, 0x04#8, 0xA3#8, 0x00#8, 0xF0#8, 0x33#8, 0xF2#8, 0x65#8, 0x12#8, 0x12#8]) := by
  decide

/-- Program P7's text with its DW, and DB, a decimal number and an omitted shift operand (R106). -/
theorem test_assemble_directives :
    assembleText ["DW 0x8127", "LD V1, 66", "end: JP end"] =
        some [0x81#8, 0x27#8, 0x61#8, 0x42#8, 0x12#8, 0x04#8] ∧
      assembleText ["SHR V3", "data: DB 1, 0xFF"] = some [0x83#8, 0x06#8, 0x01#8, 0xFF#8] := by
  decide

/-- Ill-formed lines: an operand too few, no such register, no such label, an immediate too wide. -/
theorem test_assemble_refuses :
    [["LD V1"], ["LD VG, 1"], ["JP nowhere"], ["LD V1, 256"]].all (fun t => assembleText t == none) = true := by
  decide

/-! Witnesses: for each obligation with hypotheses, a state and operands that meet all of them, at the boundary values of
each clause -/

/-- Did the outcome give a next state? -/
def goesOn : Out → Bool
  | .next _ => true
  | .fault _ => false
  | .refused _ => false

theorem next_of_goesOn {o : Out} (h : goesOn o = true) : ∃ t, o = .next t := by
  cases o with
  | next t => exact ⟨t, rfl⟩
  | fault f => cases h
  | refused r => cases h

theorem witness_encodeOfDecode : decode 0xFF65#16 = some (.ldLoad 0xF#4) ∧ decode 0x00EE#16 = some .ret := by decide

/-- The last word of memory holds 6A3C. -/
def lastWord : State :=
  { State.reset with pc := 0xFFE#16 }.withFetchWord 16 0x6A3C

theorem witness_stepRunsDecoded :
    lastWord.kwActive = false ∧ lastWord.fetchFault = none ∧
      decodeBytes [lastWord.readByte lastWord.pc.toNat, lastWord.readByte (lastWord.pc.toNat + 1)] =
        .ok (.ldImm 0xA#4 0x3C#8, []) := by
  refine ⟨by decide, by decide, ?_⟩
  rw [show lastWord.readByte lastWord.pc.toNat = 0x6A#8 by decide,
    show lastWord.readByte (lastWord.pc.toNat + 1) = 0x3C#8 by decide]
  rfl

/-- A state with the given PC and ODD_PC_POLICY. -/
def atPc (pc : Word) (policy : Config.OddPcPolicy) : State :=
  { State.reset with pc := pc, params := { defaultParams with oddPc := policy } }

/-- Clause 1 at an odd PC inside and outside memory. -/
theorem witness_fetchChecks_odd :
    (atPc 0x201#16 .fault).pc.toNat % 2 = 1 ∧ (atPc 0x201#16 .fault).params.oddPc = .fault ∧
      (atPc 0x201#16 .fault).kwActive = false ∧ (atPc 0xFFFF#16 .fault).pc.toNat % 2 = 1 := by
  decide

/-- Clause 2 at an even PC and, under fetch, at 0xFFF. -/
theorem witness_fetchChecks_range :
    (atPc 0x1000#16 .fault).pc.toNat % 2 = 0 ∧ 0xFFF < (atPc 0x1000#16 .fault).pc.toNat + 1 ∧
      (atPc 0xFFF#16 .fetch).params.oddPc = .fetch ∧ 0xFFF < (atPc 0xFFF#16 .fetch).pc.toNat + 1 ∧
      (atPc 0xFFF#16 .fetch).kwActive = false := by
  decide

/-- Reset memory holds 0x0000 at 0x200, no instruction. -/
theorem witness_unknownWordStep :
    State.reset.kwActive = false ∧ State.reset.fetchFault = none ∧ decode State.reset.fetchedWord = none := by
  decide

theorem witness_waitingCycle :
    (waiting.kwActive = true ∧ ∀ k : Nib, waiting.keyDown k = false) ∧
      (waiting.setKey 0xF#4 true).kwActive = true ∧ (waiting.setKey 0xF#4 true).keyDown 0xF#4 = true ∧
        (waiting.setKey 0xF#4 true).params.keySelect = .lowest := by
  decide

theorem witness_stepAlwaysReports :
    (∃ t, exec .cls State.reset = .next t) ∧ ∃ t, exec (.ldImm 0x0#4 0x00#8) State.reset = .next t :=
  ⟨⟨_, rfl⟩, ⟨_, rfl⟩⟩

theorem witness_addWithCarry : (0x0#4 : Nib) ≠ vf ∧ (0xE#4 : Nib) ≠ vf := by decide

/-- Both orders of the two writes, with x = 15 and with x below (SUB, SHR and SHL). -/
theorem witness_subtractNotBorrow :
    (0xE#4 ≠ vf ∨ State.reset.params.vfOrder = .listed) ∧ (vf ≠ vf ∨ State.reset.params.vfOrder = .listed) ∧
      (vf ≠ vf ∨ flagLastReset.params.vfOrder = .flagLast) := by
  decide

theorem witness_shifts :
    (0xE#4 ≠ vf ∨ flagLastReset.params.vfOrder = .listed) ∧ (0xE#4 ≠ vf ∨ State.reset.params.vfOrder = .flagLast) := by
  decide

theorem witness_randomMasked :
    State.reset.rndIn = none ∧ { State.reset with rndIn := some 0xB7#8 }.rndIn = some 0xB7#8 := by
  decide

theorem witness_skipOnKey :
    ((State.reset.setV 0x0#4 0x0F#8).getV 0x0#4).toNat < 16 ∧
      15 < ((State.reset.setV 0x0#4 0x10#8).getV 0x0#4).toNat := by
  decide

theorem witness_call :
    { State.reset with sp := 0 }.sp.val < 16 ∧ { State.reset with sp := 15 }.sp.val < 16 ∧
      { State.reset with sp := 16 }.sp.val = 16 := by
  decide

theorem witness_return :
    0 < { State.reset with sp := 1 }.sp.val ∧ 0 < { State.reset with sp := 16 }.sp.val ∧
      State.reset.sp.val = 0 := by
  decide

theorem witness_callThenReturn :
    (∃ t, exec (.call 0x300#12) State.reset = .next t) ∧
      ∃ t, exec (.call 0x300#12) { State.reset with sp := 15 } = .next t :=
  ⟨next_of_goesOn (by decide), next_of_goesOn (by decide)⟩

/-- n = 0 with I far out of range, the last byte of memory, and one byte too many. -/
theorem witness_drawCompletes :
    ((0x0#4).toNat = 0 ∨ { State.reset with i := 0xFFFF#16 }.i.toNat + (0x0#4).toNat ≤ 0x1000) ∧
      ((0x1#4).toNat = 0 ∨ { State.reset with i := 0xFFF#16 }.i.toNat + (0x1#4).toNat ≤ 0x1000) ∧
      (0x2#4).toNat ≠ 0 ∧ 0x1000 < { State.reset with i := 0xFFF#16 }.i.toNat + (0x2#4).toNat := by
  decide

/-- A drawing that completes, one with a collision and one without. -/
theorem witness_drawPixels :
    (∃ t, exec (.drw 0x0#4 0x1#4 0x5#4) State.reset = .next t) ∧
      (∃ p, p < 2048 ∧ State.spriteBit { State.reset with fb := glyphZero } 0x0#4 0x1#4 0x5#4 p = true ∧
        { State.reset with fb := glyphZero }.fb.getLsbD p = true) ∧
      (∀ p, p < 2048 → State.reset.spriteBit 0x0#4 0x1#4 0x5#4 p = true → State.reset.fb.getLsbD p = false) :=
  ⟨next_of_goesOn (by decide), ⟨0, by decide +kernel⟩, fun p _ _ => BitVec.getLsbD_zero⟩

theorem witness_drawTwiceRestores :
    0x0#4 ≠ vf ∧ 0x1#4 ≠ vf ∧ (∃ t, exec (.drw 0x0#4 0x1#4 0x5#4) State.reset = .next t) ∧
      State.reset.fb = 0#2048 :=
  ⟨by decide, by decide, next_of_goesOn (by decide), rfl⟩

theorem witness_decimalDigits :
    { State.reset with i := 0xFFD#16 }.i.toNat + 2 ≤ 0xFFF ∧ 0xFFF < { State.reset with i := 0xFFE#16 }.i.toNat + 2 := by
  decide

theorem witness_storeRegisters :
    { State.reset with i := 0xFF0#16 }.i.toNat + (0xF#4).toNat ≤ 0xFFF ∧
      0xFFF < { State.reset with i := 0xFF1#16 }.i.toNat + (0xF#4).toNat ∧
      (0x0#4).toNat ≤ (0x0#4).toNat ∧ (0xF#4).toNat ≤ (0xF#4).toNat := by
  decide

theorem witness_loadRegisters :
    { State.reset with i := 0xFFF#16 }.i.toNat + (0x0#4).toNat ≤ 0xFFF ∧
      0xFFF < { State.reset with i := 0x1000#16 }.i.toNat + (0x0#4).toNat ∧
      (0x0#4).toNat < (0x1#4).toNat ∧ (0xE#4).toNat < (0xF#4).toNat := by
  decide

theorem witness_storeThenLoad : ∃ t, exec (.ldStore 0xF#4) { State.reset with i := 0xFF0#16 } = .next t :=
  next_of_goesOn (by decide)

theorem witness_storeSeenByFetch :
    (∃ t, exec (.ldStore 0x1#4) { State.reset with i := 0x202#16 } = .next t) ∧
      { State.reset with i := 0x202#16 }.i.toNat = State.reset.pc.toNat + 2 ∧ 1 ≤ (0x1#4).toNat :=
  ⟨next_of_goesOn (by decide), by decide, by decide⟩

theorem witness_waitForKey :
    (∀ k : Nib, State.reset.keyDown k = false) ∧ (State.reset.setKey 0x0#4 true).keyDown 0x0#4 = true ∧
      (State.reset.setKey 0x0#4 true).params.keySelect = .lowest := by
  decide

theorem witness_registerWriters :
    (∃ t, exec (.addReg 0x1#4 0x2#4) State.reset = .next t) ∧ writesReg (.addReg 0x1#4 0x2#4) 0x2#4 = false :=
  ⟨⟨_, rfl⟩, by decide⟩

/-- A step that stores: FX33 of 156 at 0x300. -/
theorem witness_memoryWriters :
    let s := { State.reset.withFetchWord 16 0xF133 with i := 0x300#16 }.setV 0x1#4 0x9C#8
    ∃ t, step s = .next t ∧ t.readByte 0x302 ≠ s.readByte 0x302 :=
  ⟨_, rfl, by decide⟩

/-- A step for each clause: ANNN, 2NNN, FX15 and FX18 (2NNN for both SP and the stack). -/
theorem witness_specialRegisterWriters :
    (∃ t, step (State.reset.withFetchWord 16 0xA2F0) = .next t ∧ t.i ≠ State.reset.i) ∧
      (∃ t, step (State.reset.withFetchWord 16 0x2300) = .next t ∧ t.sp ≠ State.reset.sp ∧ t.stack ≠ State.reset.stack) ∧
      (∃ t, step ((State.reset.withFetchWord 16 0xF015).setV 0x0#4 0x03#8) = .next t ∧ t.dt ≠ State.reset.dt) ∧
      (∃ t, step ((State.reset.withFetchWord 16 0xF018).setV 0x0#4 0x03#8) = .next t ∧ t.st ≠ State.reset.st) :=
  ⟨⟨_, rfl, by decide⟩, ⟨_, rfl, by decide⟩, ⟨_, rfl, by decide⟩, ⟨_, rfl, by decide⟩⟩

theorem witness_redrawFlag :
    State.reset.redraw = false ∧
      (hostOp (.step 0x00#8) (State.reset.withFetchWord 16 0x00E0)).2.redraw = true ∧
      { State.reset with redraw := true }.redraw = true ∧
      (hostOp .consumeRedraw { State.reset with redraw := true }).2.redraw = false ∧
      (∃ t, exec .cls State.reset = .next t) ∧ writesDisplay .cls = true :=
  ⟨rfl, rfl, rfl, rfl, ⟨_, rfl⟩, rfl⟩

theorem witness_displayIsolation :
    writesDisplay (.jp 0x200#12) = false ∧
      (hostOp (.step 0x00#8) (State.reset.withFetchWord 16 0xD015)).2.fb ≠ (State.reset.withFetchWord 16 0xD015).fb := by
  decide +kernel

theorem witness_modes :
    (State.reset.withFetchWord 16 0xF50A).kwActive = false ∧
      (hostOp (.step 0x00#8) (State.reset.withFetchWord 16 0xF50A)).2.kwActive = true ∧
      waiting.kwActive = true ∧ (hostOp (.step 0x00#8) (waiting.setKey 0xC#4 true)).2.kwActive = false := by
  decide

theorem witness_programCounterTable :
    (∃ t, step State.reset = .next t) ∧ ∃ f, step { State.reset with pc := 0x201#16 } = .fault f :=
  ⟨next_of_goesOn (by decide), ⟨_, rfl⟩⟩

theorem witness_conditionsExactly :
    step { State.reset with pc := 0x201#16 } = .fault (.misalignedFetch 0x201#16) ∧
      step (State.reset.withFetchWord 16 0x00EE) = .fault .stackUnderflow ∧
      executeFault .ret (State.reset.withFetchWord 16 0x00EE) = some .stackUnderflow :=
  ⟨rfl, rfl, rfl⟩

theorem witness_fatalChangesNothing :
    (hostOp (.step 0x00#8) (State.reset.withFetchWord 16 0x00EE)).1 = .result (.fatal .stackUnderflow) :=
  rfl

theorem witness_drawReadOnlyByRnd :
    State.reset.params.keySelect = .lowest ∧ decode State.reset.fetchedWord = none := by
  decide

theorem witness_resetState :
    80 ≤ 0x050 ∧ State.reset.params = waiting.params ∧ State.reset.draws = waiting.draws :=
  ⟨by decide, rfl, rfl⟩

theorem reset_inv : State.reset.inv :=
  ⟨rfl, rfl, rfl⟩

/-- The invariant while waiting, with bytes listed in memory, and a step from there. -/
theorem witness_stepKeepsInv : waiting.inv ∧ (∃ t, step waiting = .next t) ∧ ∃ t, step State.reset = .next t :=
  ⟨⟨by decide, by decide, by decide⟩, next_of_goesOn (by decide), next_of_goesOn (by decide)⟩

theorem witness_hostOpKeepsInv : (waiting.setKey 0xC#4 true).inv :=
  ⟨by decide, by decide, by decide⟩

theorem witness_loadRom :
    0x200 + (List.replicate 3584 0xAA#8).length ≤ 0x1000 ∧ 0x1000 < 0x200 + (List.replicate 3585 0xAA#8).length := by
  rw [List.length_replicate, List.length_replicate]
  decide

/-- A jump to itself at 0x200 and at the last word of memory. -/
theorem witness_idleStaysIdle :
    (State.reset.withFetchWord 16 0x1200).idle ∧ ({ State.reset with pc := 0xFFE#16 }.withFetchWord 16 0x1FFE).idle :=
  ⟨⟨rfl, by decide, by decide, 0x200#12, by decide, by decide⟩, ⟨rfl, by decide, by decide, 0xFFE#12, by decide, by decide⟩⟩

/-- A program that loads V0 and then jumps to itself. -/
def shortProgram : List Byte :=
  [0x60#8, 0x05#8, 0x12#8, 0x02#8]

/-- The short program's run ends after one step, without a reset; a return first of all faults at once. -/
theorem witness_runEnd :
    endsAt defaultParams shortProgram [.step 0x00#8] 1 ∧ HostOp.reset ∉ [HostOp.step 0x00#8] ∧
      faultsAt defaultParams [0x00#8, 0xEE#8] [.step 0x00#8] 0 := by
  have hd : decode (runState defaultParams shortProgram [.step 0x00#8] 0).fetchedWord = some (.ldImm 0x0#4 0x05#8) := by
    decide
  have hr : (hostOp (.step 0x00#8) (runState defaultParams shortProgram [.step 0x00#8] 0)).1 = .result (.ok false) := by
    decide
  refine ⟨⟨by decide, ⟨by decide, by decide, by decide, 0x202#12, by decide, by decide⟩, fun m hm => ?_⟩, by decide,
    ⟨0x00#8, .stackUnderflow, rfl, by decide⟩, fun j hj => absurd hj (Nat.not_lt_zero j)⟩
  obtain rfl : m = 0 := by omega
  constructor
  · rintro ⟨-, -, -, nnn, hj, -⟩
    rw [hd] at hj
    cases hj
  · rintro ⟨rnd, f, ho, hf⟩
    cases ho
    rw [hr] at hf
    cases hf

/-- An idle state after a fault is no end (D27). -/
theorem test_faulted_not_ended : ¬State.ended { State.reset.withFetchWord 16 0x1200 with faulted := true } :=
  fun h => Bool.noConfusion h.2

end Sys2Proof.Tests
end

section
/-! SUPPORT. What the shared operations of more than one write leave of the register file and of REDRAW, and from that
what every instruction does to them. -/

namespace Sys2Proof.Machine

/-! Shared operations -/

@[simp] theorem State.getV_writeBytes (s : State) (a : Nat) (bs : List Byte) (r : Nib) :
    (s.writeBytes a bs).getV r = s.getV r := by
  rw [State.writeBytes_eq]
  rfl

@[simp] theorem State.writeBytes_redraw (s : State) (a : Nat) (bs : List Byte) :
    (s.writeBytes a bs).redraw = s.redraw := by
  rw [State.writeBytes_eq]

@[simp] theorem State.writeThenFlag_redraw (s : State) (x : Nib) (result flag : Byte) :
    (s.writeThenFlag x result flag).redraw = s.redraw :=
  rfl

@[simp] theorem State.writeFlagged_redraw (s : State) (x : Nib) (result flag : Byte) :
    (s.writeFlagged x result flag).redraw = s.redraw := by
  rw [State.writeFlagged_eq]

/-- Under either VF_WRITE_ORDER only the destination and VF are written. -/
theorem State.getV_writeFlagged_other (s : State) {x r : Nib} (result flag : Byte) (hx : r ≠ x) (hf : r ≠ vf) :
    (s.writeFlagged x result flag).getV r = s.getV r := by
  rw [State.getV_writeFlagged]
  cases s.params.vfOrder <;> simp [hx, hf]

@[simp] theorem State.storeKey_redraw (s : State) (x k : Nib) : (s.storeKey x k).redraw = s.redraw := by
  rw [State.storeKey_eq]

/-- A found key is stored in one register only. -/
theorem State.getV_storeKey_other (s : State) {x r : Nib} (k : Nib) (h : r ≠ x) :
    (s.storeKey x k).getV r = s.getV r := by
  rw [State.storeKey_eq]
  exact State.getV_setV_other s (k.setWidth 8) h

/-! Instructions -/

/-- The registers an instruction is not named for are kept (R22). -/
theorem exec_getV_of_not_writesReg {i : Instr} {s t : State} {r : Nib} (h : exec i s = .next t)
    (hr : writesReg i r = false) : t.getV r = s.getV r := by
  cases i with
  | ldVxK x =>
    rcases execLdVxK_eq_next h with ⟨-, rfl⟩ | ⟨k, -, rfl⟩
    · rfl
    · exact State.getV_storeKey_other s k (by simpa [writesReg] using hr)
  | skp x => obtain ⟨-, rfl⟩ := skipOnKey_eq_next h; rfl
  | sknp x => obtain ⟨-, rfl⟩ := skipOnKey_eq_next h; rfl
  | ret => obtain ⟨-, rfl⟩ := execRet_eq_next h; rfl
  | call nnn => obtain ⟨-, rfl⟩ := execCall_eq_next h; rfl
  | drw x y n =>
    obtain ⟨-, rfl⟩ := execDrw_eq_next h
    have hf : r ≠ vf := by simpa [writesReg] using hr
    simp [State.getV_showCanvas, hf]
  | ldB x => obtain ⟨-, rfl⟩ := execLdB_eq_next h; simp
  | ldStore x => obtain ⟨-, rfl⟩ := execLdStore_eq_next h; simp
  | ldLoad x =>
    obtain ⟨-, rfl⟩ := execLdLoad_eq_next h
    have hx : ¬r.toNat ≤ x.toNat := by simpa [writesReg] using hr
    simp [State.getV_loadRegs, hx]
  | sub x y | shr x y | shl x y =>
    obtain ⟨hx, hf⟩ : r ≠ x ∧ r ≠ vf := by simpa [writesReg] using hr
    obtain rfl := finish_eq_next.mp h
    exact State.getV_writeFlagged_other s _ _ hx hf
  | addReg x y =>
    obtain ⟨hx, hf⟩ : r ≠ x ∧ r ≠ vf := by simpa [writesReg] using hr
    obtain rfl := finish_eq_next.mp h
    simp [State.getV_writeThenFlag, hx, hf]
  | addI x =>
    obtain rfl := finish_eq_next.mp h
    exact State.getV_setV_other (s.setI _) _ (by simpa [writesReg] using hr)
  | rnd x nn =>
    obtain rfl := finish_eq_next.mp h
    exact State.getV_setV_other s.drawTaken _ (by simpa [writesReg] using hr)
  | ldImm x | addImm x | ldReg x | orReg x | andReg x | xorReg x | ldVxDt x =>
    obtain rfl := finish_eq_next.mp h
    exact State.getV_setV_other s _ (by simpa [writesReg] using hr)
  | cls | jp | seImm | sneImm | seReg | sneReg | ldI | jpV0 | ldDt | ldSt | ldF =>
    obtain rfl := finish_eq_next.mp h
    rfl

/-- CLS and DRW set REDRAW and no other instruction writes it (R33). -/
theorem exec_redraw {i : Instr} {s t : State} (h : exec i s = .next t) :
    t.redraw = (writesDisplay i || s.redraw) := by
  cases i with
  | ldVxK x => rcases execLdVxK_eq_next h with ⟨-, rfl⟩ | ⟨k, -, rfl⟩ <;> simp [State.report, writesDisplay]
  | skp x => obtain ⟨-, rfl⟩ := skipOnKey_eq_next h; rfl
  | sknp x => obtain ⟨-, rfl⟩ := skipOnKey_eq_next h; rfl
  | ret => obtain ⟨-, rfl⟩ := execRet_eq_next h; rfl
  | call nnn => obtain ⟨-, rfl⟩ := execCall_eq_next h; rfl
  | drw x y n => obtain ⟨-, rfl⟩ := execDrw_eq_next h; rfl
  | ldB x => obtain ⟨-, rfl⟩ := execLdB_eq_next h; simp [writesDisplay]
  | ldStore x => obtain ⟨-, rfl⟩ := execLdStore_eq_next h; simp [writesDisplay]
  | ldLoad x => obtain ⟨-, rfl⟩ := execLdLoad_eq_next h; rfl
  | sub x y | shr x y | shl x y =>
    obtain rfl := finish_eq_next.mp h
    simp [writesDisplay]
  | _ =>
    obtain rfl := finish_eq_next.mp h
    rfl

end Sys2Proof.Machine
end

section
/-! The statements about the state: who writes the register file and who writes REDRAW. -/

namespace Sys2Proof.Machine

/-- A step sets REDRAW by running CLS or DRW and otherwise keeps it: the waiting cycle and an unknown word do not write
it (R33). -/
theorem step_redraw {s t : State} (h : step s = .next t) :
    t.redraw = s.redraw ∨
      t.redraw = true ∧ s.kwActive = false ∧ ∃ i, decode s.fetchedWord = some i ∧ writesDisplay i = true := by
  rcases step_eq_next h with ⟨-, hw⟩ | ⟨hk, -, i, hd, he⟩ | ⟨-, -, -, rfl⟩
  · left
    rcases waitCycle_eq_next hw with ⟨-, rfl⟩ | ⟨k, -, rfl⟩ <;> simp [State.report]
  · have hr : t.redraw = (writesDisplay i || s.redraw) := by simpa using exec_redraw he
    cases hi : writesDisplay i with
    | true => exact .inr ⟨by simp [hr, hi], hk, i, hd, hi⟩
    | false => exact .inl (by simp [hr, hi])
  · exact .inl rfl

/-- The host's step does to REDRAW what the step does; after a condition it is as before (R131). -/
theorem hostStep_redraw (rnd : Byte) (s : State) :
    (hostStep rnd s).2.redraw = s.redraw ∨
      (hostStep rnd s).2.redraw = true ∧ s.kwActive = false ∧
        ∃ i, decode s.fetchedWord = some i ∧ writesDisplay i = true := by
  unfold hostStep
  split
  · next t h => exact (step_redraw h :)
  · exact .inl rfl
  · exact .inl rfl

/-- REDRAW after each host operation: consumeRedraw and reset clear it, a step may set it, the others keep it. -/
theorem hostOp_redraw (op : HostOp) (s : State) :
    (hostOp op s).2.redraw = s.redraw ∨
      ((hostOp op s).2.redraw = false ∧ (op = .consumeRedraw ∨ op = .reset)) ∨
      ((hostOp op s).2.redraw = true ∧ s.kwActive = false ∧ (∃ rnd, op = .step rnd) ∧
        ∃ i, decode s.fetchedWord = some i ∧ writesDisplay i = true) := by
  cases op with
  | reset => exact .inr (.inl ⟨rfl, .inr rfl⟩)
  | consumeRedraw => exact .inr (.inl ⟨rfl, .inl rfl⟩)
  | load rom =>
    left
    simp only [hostOp]
    split
    · exact State.writeBytes_redraw s _ rom
    · rfl
  | step rnd =>
    rcases hostStep_redraw rnd s with h | ⟨h, hk, hi⟩
    · exact .inl h
    · exact .inr (.inr ⟨h, hk, ⟨rnd, rfl⟩, hi⟩)
  | tick | getDisplay | soundTimer | setKey | dump => exact .inl rfl

end Sys2Proof.Machine

namespace Sys2Proof.Proofs

open Sys2Proof.Machine

/-- Settles O40: the frame of the register file, instruction by instruction. -/
theorem registerWriters : Obligations.RegisterWriters :=
  fun _ _ _ h _ hr => exec_getV_of_not_writesReg h hr

/-- Settles O43, from what each host operation and each instruction does to REDRAW. -/
theorem redrawFlag : Obligations.RedrawFlag := by
  intro op s
  refine ⟨fun h0 h1 => ?_, fun h1 h0 => ?_, fun i t h hi => ?_, rfl, rfl⟩
  · rcases hostOp_redraw op s with h | ⟨h, -⟩ | ⟨-, hset⟩
    · simp [h, h0] at h1
    · simp [h] at h1
    · exact hset
  · rcases hostOp_redraw op s with h | ⟨-, hclear⟩ | ⟨h, -⟩
    · simp [h, h1] at h0
    · exact hclear
    · simp [h] at h0
  · simp [exec_redraw h, hi]

end Sys2Proof.Proofs
end

section
/-! SUPPORT. The encoder and the decoder as inverses: a word put together again from its own fields, what the decoder
answers on each family, and the words of a row of spec/30_encoding.md R100. -/

namespace Sys2Proof

/-! A word whose fields are packed again is the word itself exactly when the packed top nibble and low bits are its own
(R91, R92). -/

theorem packXK_eq_self_iff {w : Word} {o : Nib} {s : Byte} :
    (o ++ fieldX w ++ s : Word) = w ↔ fieldOp w = o ∧ fieldNN w = s := by
  constructor
  · intro h
    constructor <;> rw [← h] <;> simp
  · rintro ⟨rfl, rfl⟩
    apply BitVec.eq_of_toNat_eq
    rw [packXK_toNat, fieldOp_toNat, fieldX_toNat, fieldNN_toNat]
    omega

theorem packXYN_eq_self_iff {w : Word} {o s : Nib} :
    (o ++ fieldX w ++ fieldY w ++ s : Word) = w ↔ fieldOp w = o ∧ fieldN w = s := by
  constructor
  · intro h
    constructor <;> rw [← h] <;> simp
  · rintro ⟨rfl, rfl⟩
    apply BitVec.eq_of_toNat_eq
    rw [packXYN_toNat, fieldOp_toNat, fieldX_toNat, fieldY_toNat, fieldN_toNat]
    omega

theorem packA_eq_self_iff {w : Word} {o : Nib} {nnn : Imm12} :
    (o ++ nnn : Word) = w ↔ fieldOp w = o ∧ fieldNNN w = nnn := by
  constructor
  · rintro rfl
    simp
  · rintro ⟨rfl, rfl⟩
    apply BitVec.eq_of_toNat_eq
    rw [packA_toNat, fieldOp_toNat, fieldNNN_toNat]
    omega

/-! A masked word has the match's bits exactly when its fields are those of the match (R100) -/

theorem maskHigh_eq_iff {w : Word} {o : Nib} : w &&& 0xF000#16 = (o ++ 0#12 : Word) ↔ fieldOp w = o := by
  simp only [← BitVec.toNat_inj, maskHigh_toNat, packA_toNat, fieldOp_toNat, BitVec.toNat_zero]
  omega

theorem maskHighNibble_eq_iff {w : Word} {o s : Nib} :
    w &&& 0xF00F#16 = (o ++ 0#4 ++ 0#4 ++ s : Word) ↔ fieldOp w = o ∧ fieldN w = s := by
  simp only [← BitVec.toNat_inj, maskHighNibble_toNat, packXYN_toNat, fieldOp_toNat, fieldN_toNat, BitVec.toNat_zero]
  omega

theorem maskHighByte_eq_iff {w : Word} {o : Nib} {s : Byte} :
    w &&& 0xF0FF#16 = (o ++ 0#4 ++ s : Word) ↔ fieldOp w = o ∧ fieldNN w = s := by
  simp only [← BitVec.toNat_inj, maskHighByte_toNat, packXK_toNat, fieldOp_toNat, fieldNN_toNat, BitVec.toNat_zero]
  omega

/-! What a family of the decoder answers is encoded as the word it read -/

theorem encode_of_decodeSystem {w : Word} {i : Instr} (hop : fieldOp w = 0x0#4) (h : decodeSystem w = .ok i) :
    encode i = w := by
  unfold decodeSystem at h
  split at h <;> cases h
  · exact packA_eq_self_iff (nnn := 0x0E0#12).mpr ⟨hop, BitVec.eq_of_toNat_eq ‹_›⟩
  · exact packA_eq_self_iff (nnn := 0x0EE#12).mpr ⟨hop, BitVec.eq_of_toNat_eq ‹_›⟩

theorem encode_of_decodeAlu {w : Word} {i : Instr} (hop : fieldOp w = 0x8#4) (h : decodeAlu w = .ok i) :
    encode i = w := by
  unfold decodeAlu at h
  split at h <;> cases h <;> exact packXYN_eq_self_iff.mpr ⟨hop, BitVec.eq_of_toNat_eq ‹_›⟩

theorem encode_of_decodeKeySkip {w : Word} {i : Instr} (hop : fieldOp w = 0xE#4) (h : decodeKeySkip w = .ok i) :
    encode i = w := by
  unfold decodeKeySkip at h
  split at h <;> cases h <;> exact packXK_eq_self_iff.mpr ⟨hop, BitVec.eq_of_toNat_eq ‹_›⟩

theorem encode_of_decodeMisc {w : Word} {i : Instr} (hop : fieldOp w = 0xF#4) (h : decodeMisc w = .ok i) :
    encode i = w := by
  unfold decodeMisc at h
  split at h <;> cases h <;> exact packXK_eq_self_iff.mpr ⟨hop, BitVec.eq_of_toNat_eq ‹_›⟩

/-- No bit of a decoded word is dropped, whatever its family (R104); the case `h_k` is the top nibble k - 1. -/
theorem encode_of_decodeWord {w : Word} {i : Instr} (h : decodeWord w = .ok i) : encode i = w := by
  unfold decodeWord at h
  split at h
  case h_1 hop => exact encode_of_decodeSystem (BitVec.eq_of_toNat_eq hop) h
  case h_9 hop => exact encode_of_decodeAlu (BitVec.eq_of_toNat_eq hop) h
  case h_15 hop => exact encode_of_decodeKeySkip (BitVec.eq_of_toNat_eq hop) h
  case h_16 =>
    have hlt := (fieldOp w).isLt
    have hop : (fieldOp w).toNat = 15 := by
      simp only [imp_false] at *
      omega
    exact encode_of_decodeMisc (BitVec.eq_of_toNat_eq hop) h
  case h_6 hop | h_10 hop =>
    split at h <;> cases h
    exact packXYN_eq_self_iff.mpr ⟨BitVec.eq_of_toNat_eq hop, ‹_›⟩
  case h_14 hop => cases h; exact packXYN_eq_self_iff.mpr ⟨BitVec.eq_of_toNat_eq hop, rfl⟩
  case h_2 hop | h_3 hop | h_11 hop | h_12 hop =>
    cases h; exact packA_eq_self_iff.mpr ⟨BitVec.eq_of_toNat_eq hop, rfl⟩
  case h_4 hop | h_5 hop | h_7 hop | h_8 hop | h_13 hop =>
    cases h; exact packXK_eq_self_iff.mpr ⟨BitVec.eq_of_toNat_eq hop, rfl⟩

/-- The encoder's word is decoded as the instruction, family by family. -/
theorem decodeWord_encode (i : Instr) : decodeWord (encode i) = .ok i := by
  cases i with
  | cls | ret => rfl
  | jp nnn | call nnn | ldI nnn | jpV0 nnn | seImm x nn | sneImm x nn | ldImm x nn | addImm x nn | rnd x nn
  | seReg x y | sneReg x y | drw x y n => simp [encode, decodeWord]
  | ldReg x y | orReg x y | andReg x y | xorReg x y | addReg x y | sub x y | shr x y | shl x y =>
    simp [encode, decodeWord, decodeAlu]
  | skp x | sknp x => simp [encode, decodeWord, decodeKeySkip]
  | ldVxDt x | ldVxK x | ldDt x | ldSt x | addI x | ldF x | ldB x | ldStore x | ldLoad x =>
    simp [encode, decodeWord, decodeMisc]

/-- Decoder and encoder are inverse to each other, so that statements about the decoder follow from the encoder. -/
theorem decode_eq_some_iff_encode {w : Word} {i : Instr} : decode w = some i ↔ encode i = w := by
  rw [decode_eq_some]
  constructor
  · exact encode_of_decodeWord
  · rintro rfl
    exact decodeWord_encode i

/-- Decoding the bytes of an instruction leaves the bytes that follow them. -/
theorem decodeBytes_encodeBytes (i : Instr) (rest : List Byte) :
    decodeBytes (encodeBytes i ++ rest) = .ok (i, rest) := by
  have h := decodeBytes_cons ((encode i).extractLsb' 8 8) ((encode i).extractLsb' 0 8) rest
  rw [wordOfBytes_bytesOfWord, decodeWord_encode] at h
  exact h

end Sys2Proof

namespace Sys2Proof.Machine

/-! The rows of R100 by format (R92): the mask and the match follow from the encoder's layout -/

theorem decodesRow_iff {mask value : Word} {mk : Word → Instr} :
    decodesRow mask value mk ↔ ∀ w, encode (mk w) = w ↔ w &&& mask = value := by
  simp only [decodesRow, decode_eq_some_iff_encode]

/-- Rows without operands. -/
theorem decodesRow_o {value : Word} {i : Instr} (he : encode i = value) : decodesRow 0xFFFF#16 value fun _ => i := by
  rw [decodesRow_iff]
  intro w
  rw [he, maskAll, eq_comm]

theorem decodesRow_a (o : Nib) {mk : Word → Instr} (he : ∀ w, encode (mk w) = o ++ fieldNNN w) :
    decodesRow 0xF000#16 (o ++ 0#12) mk := by
  rw [decodesRow_iff]
  intro w
  rw [he, packA_eq_self_iff, maskHigh_eq_iff, and_iff_left rfl]

theorem decodesRow_xk (o : Nib) {mk : Word → Instr} (he : ∀ w, encode (mk w) = o ++ fieldX w ++ fieldNN w) :
    decodesRow 0xF000#16 (o ++ 0#12) mk := by
  rw [decodesRow_iff]
  intro w
  rw [he, packXK_eq_self_iff, maskHigh_eq_iff, and_iff_left rfl]

theorem decodesRow_xy (o s : Nib) {mk : Word → Instr} (he : ∀ w, encode (mk w) = o ++ fieldX w ++ fieldY w ++ s) :
    decodesRow 0xF00F#16 (o ++ 0#4 ++ 0#4 ++ s) mk := by
  rw [decodesRow_iff]
  intro w
  rw [he, packXYN_eq_self_iff, maskHighNibble_eq_iff]

theorem decodesRow_xyn (o : Nib) {mk : Word → Instr}
    (he : ∀ w, encode (mk w) = o ++ fieldX w ++ fieldY w ++ fieldN w) : decodesRow 0xF000#16 (o ++ 0#12) mk := by
  rw [decodesRow_iff]
  intro w
  rw [he, packXYN_eq_self_iff, maskHigh_eq_iff, and_iff_left rfl]

theorem decodesRow_xs (o : Nib) (s : Byte) {mk : Word → Instr} (he : ∀ w, encode (mk w) = o ++ fieldX w ++ s) :
    decodesRow 0xF0FF#16 (o ++ 0#4 ++ s) mk := by
  rw [decodesRow_iff]
  intro w
  rw [he, packXK_eq_self_iff, maskHighByte_eq_iff]

end Sys2Proof.Machine
end

section
/-! The statements about the encoding. -/

namespace Sys2Proof.Proofs

open Sys2Proof.Machine

/-- Settles O1: the fields of a packed word are the operands packed into it. -/
theorem decodeOfEncode : Obligations.DecodeOfEncode := by
  intro i rest
  exact ⟨Laws.Instr_wellFormed_all i, decode_eq_some.mpr (decodeWord_encode i), decodeBytes_encodeBytes i rest⟩

/-- Settles O2: a decoded word is its own fields put together again. -/
theorem encodeOfDecode : Obligations.EncodeOfDecode :=
  fun _ _ => decode_eq_some_iff_encode.mp

/-- Settles O3, each row from its format's lemma and the encoder's equation for the row's instruction. -/
theorem decodeFollowsTable : Obligations.DecodeFollowsTable :=
  ⟨decodesRow_o rfl, decodesRow_o rfl, decodesRow_a 0x1#4 fun _ => rfl, decodesRow_a 0x2#4 fun _ => rfl,
    decodesRow_xk 0x3#4 fun _ => rfl, decodesRow_xk 0x4#4 fun _ => rfl, decodesRow_xy 0x5#4 0x0#4 fun _ => rfl,
    decodesRow_xk 0x6#4 fun _ => rfl, decodesRow_xk 0x7#4 fun _ => rfl,
    decodesRow_xy 0x8#4 0x0#4 fun _ => rfl, decodesRow_xy 0x8#4 0x1#4 fun _ => rfl,
    decodesRow_xy 0x8#4 0x2#4 fun _ => rfl, decodesRow_xy 0x8#4 0x3#4 fun _ => rfl,
    decodesRow_xy 0x8#4 0x4#4 fun _ => rfl, decodesRow_xy 0x8#4 0x5#4 fun _ => rfl,
    decodesRow_xy 0x8#4 0x6#4 fun _ => rfl, decodesRow_xy 0x8#4 0xE#4 fun _ => rfl,
    decodesRow_xy 0x9#4 0x0#4 fun _ => rfl, decodesRow_a 0xA#4 fun _ => rfl, decodesRow_a 0xB#4 fun _ => rfl,
    decodesRow_xk 0xC#4 fun _ => rfl, decodesRow_xyn 0xD#4 fun _ => rfl,
    decodesRow_xs 0xE#4 0x9E#8 fun _ => rfl, decodesRow_xs 0xE#4 0xA1#8 fun _ => rfl,
    decodesRow_xs 0xF#4 0x07#8 fun _ => rfl, decodesRow_xs 0xF#4 0x0A#8 fun _ => rfl,
    decodesRow_xs 0xF#4 0x15#8 fun _ => rfl, decodesRow_xs 0xF#4 0x18#8 fun _ => rfl,
    decodesRow_xs 0xF#4 0x1E#8 fun _ => rfl, decodesRow_xs 0xF#4 0x29#8 fun _ => rfl,
    decodesRow_xs 0xF#4 0x33#8 fun _ => rfl, decodesRow_xs 0xF#4 0x55#8 fun _ => rfl,
    decodesRow_xs 0xF#4 0x65#8 fun _ => rfl⟩

end Sys2Proof.Proofs
end

section
/-! SUPPORT. How a cycle changes PC and KW.active, and when it ends in a condition: a lemma for what an instruction
does and one for what the waiting cycle does. -/

namespace Sys2Proof.Machine

/-! Shared operations -/

@[simp] theorem State.writeBytes_pc (s : State) (a : Nat) (bs : List Byte) : (s.writeBytes a bs).pc = s.pc := by
  rw [State.writeBytes_eq]

@[simp] theorem State.writeFlagged_pc (s : State) (x : Nib) (result flag : Byte) :
    (s.writeFlagged x result flag).pc = s.pc := by
  rw [State.writeFlagged_eq]

@[simp] theorem State.storeKey_pc (s : State) (x k : Nib) : (s.storeKey x k).pc = s.pc + 2#16 := by
  rw [State.storeKey_eq]

@[simp] theorem State.writeBytes_kwActive (s : State) (a : Nat) (bs : List Byte) :
    (s.writeBytes a bs).kwActive = s.kwActive := by
  rw [State.writeBytes_eq]

@[simp] theorem State.writeFlagged_kwActive (s : State) (x : Nib) (result flag : Byte) :
    (s.writeFlagged x result flag).kwActive = s.kwActive := by
  rw [State.writeFlagged_eq]

@[simp] theorem State.storeKey_kwActive (s : State) (x k : Nib) : (s.storeKey x k).kwActive = s.kwActive := by
  rw [State.storeKey_eq]

/-- A key number below 16 is kept by its low four bits. -/
theorem State.keyDown_setWidth (s : State) {k : Byte} (hk : k.toNat < 16) :
    s.keyDown (k.setWidth 4) = s.key[k.toNat] := by
  simp [State.keyDown, Nat.mod_eq_of_lt hk]

/-- PC is a 16-bit value (R24). -/
theorem State.pc_toNat_mod (s : State) : s.pc.toNat % 65536 = s.pc.toNat :=
  Nat.mod_eq_of_lt s.pc.isLt

/-- The skip of R127: PC + 4 when it is taken and PC + 2 when it is not. -/
theorem State.skipIf_pc_toNat (s : State) (c : Bool) :
    (s.skipIf c).pc.toNat = (s.pc.toNat + if c then 4 else 2) % 65536 := by
  cases c <;> rfl

/-- PC after a skip on a condition, which always completes. -/
theorem skipOn_pc_toNat {c : Bool} {s t : State} (h : skipOn c s = .next t) :
    t.pc.toNat = (s.pc.toNat + if c then 4 else 2) % 65536 := by
  obtain rfl := finish_eq_next.mp h
  exact s.skipIf_pc_toNat c

/-- A key skip that completes is decided by the latch of the key V[x] names (R184, R185). -/
theorem skipOnKey_pc_toNat {x : Nib} {wanted : Bool} {s t : State} (h : skipOnKey x wanted s = .next t) :
    t.pc.toNat = (s.pc.toNat + if s.keyDown ((s.getV x).setWidth 4) == wanted then 4 else 2) % 65536 := by
  obtain ⟨hk, rfl⟩ := skipOnKey_eq_next h
  rw [s.keyDown_setWidth hk]
  exact s.skipIf_pc_toNat _

/-! The latched word is read by no rule about PC and by no condition -/

@[simp] theorem pcAfter_latch (i : Instr) (s : State) (w : Word) : pcAfter i (s.latch w) = pcAfter i s :=
  rfl

@[simp] theorem executeFault_latch (i : Instr) (s : State) (w : Word) :
    executeFault i (s.latch w) = executeFault i s :=
  rfl

/-! PC -/

/-- The table of R126, instruction by instruction. -/
theorem exec_pc_toNat {i : Instr} {s t : State} (h : exec i s = .next t) : t.pc.toNat = pcAfter i s % 65536 := by
  cases i with
  | seImm x nn | sneImm x nn | seReg x y | sneReg x y => simpa [pcAfter] using skipOn_pc_toNat h
  | skp x => simpa [pcAfter] using skipOnKey_pc_toNat h
  | sknp x => simpa [pcAfter, ← Bool.not_eq_true] using skipOnKey_pc_toNat h
  | jp nnn =>
    obtain rfl := finish_eq_next.mp h
    simp [pcAfter, ← zextAddr_toNat, Nat.mod_eq_of_lt (zextAddr nnn).isLt]
  | call nnn =>
    obtain ⟨-, rfl⟩ := execCall_eq_next h
    simp [pcAfter, ← zextAddr_toNat, Nat.mod_eq_of_lt (zextAddr nnn).isLt]
  | jpV0 nnn =>
    obtain rfl := finish_eq_next.mp h
    simp [pcAfter, zextAddr_toNat, zextByte_toNat]
  | ret =>
    obtain ⟨-, rfl⟩ := execRet_eq_next h
    have hlt : s.sp.val - 1 < 16 := by omega
    simp [pcAfter, hlt]
  | ldVxK x =>
    rcases execLdVxK_eq_next h with ⟨hup, rfl⟩ | ⟨k, hk, rfl⟩
    · simp [pcAfter, hup, s.pc_toNat_mod]
    · have hdown : ∃ k, s.keyDown k = true := ⟨k, hk⟩
      simp [pcAfter, hdown]
  | drw x y n => obtain ⟨-, rfl⟩ := execDrw_eq_next h; rfl
  | ldLoad x => obtain ⟨-, rfl⟩ := execLdLoad_eq_next h; simp [pcAfter]
  | ldB x => obtain ⟨-, rfl⟩ := execLdB_eq_next h; simp [pcAfter]
  | ldStore x => obtain ⟨-, rfl⟩ := execLdStore_eq_next h; simp [pcAfter]
  | sub x y | shr x y | shl x y =>
    obtain rfl := finish_eq_next.mp h
    simp [pcAfter]
  | _ =>
    obtain rfl := finish_eq_next.mp h
    rfl

/-- The waiting cycle passes the FX0A word when it finds a pressed key and otherwise stays on it (R126, R262). -/
theorem waitCycle_pc_toNat {s t : State} (h : waitCycle s = .next t) :
    t.pc.toNat = (if ∃ k, s.keyDown k = true then s.pc.toNat + 2 else s.pc.toNat) % 65536 := by
  rcases waitCycle_eq_next h with ⟨hup, rfl⟩ | ⟨k, hk, rfl⟩
  · simp [hup, s.pc_toNat_mod]
  · have hdown : ∃ k, s.keyDown k = true := ⟨k, hk⟩
    simp [hdown]

/-! The key wait -/

/-- FX0A with no key pressed enters the key wait; no other instruction writes KW.active (R36, R261). -/
theorem exec_kwActive {i : Instr} {s t : State} (h : exec i s = .next t) :
    t.kwActive = s.kwActive ∨
      (t.kwActive = true ∧ (∀ k, s.keyDown k = false) ∧ ∃ x, i = .ldVxK x ∧ t.kwReg = x) := by
  cases i with
  | ldVxK x =>
    rcases execLdVxK_eq_next h with ⟨hup, rfl⟩ | ⟨k, -, rfl⟩
    · exact .inr ⟨rfl, hup, x, rfl, rfl⟩
    · exact .inl (s.storeKey_kwActive x k)
  | skp x => obtain ⟨-, rfl⟩ := skipOnKey_eq_next h; exact .inl rfl
  | sknp x => obtain ⟨-, rfl⟩ := skipOnKey_eq_next h; exact .inl rfl
  | ret => obtain ⟨-, rfl⟩ := execRet_eq_next h; exact .inl rfl
  | call nnn => obtain ⟨-, rfl⟩ := execCall_eq_next h; exact .inl rfl
  | drw x y n => obtain ⟨-, rfl⟩ := execDrw_eq_next h; exact .inl rfl
  | ldLoad x => obtain ⟨-, rfl⟩ := execLdLoad_eq_next h; simp
  | ldB x => obtain ⟨-, rfl⟩ := execLdB_eq_next h; simp
  | ldStore x => obtain ⟨-, rfl⟩ := execLdStore_eq_next h; simp
  | sub x y | shr x y | shl x y =>
    obtain rfl := finish_eq_next.mp h
    simp
  | _ =>
    obtain rfl := finish_eq_next.mp h
    exact .inl rfl

/-! Conditions -/

/-- An instruction ends in a condition exactly when it meets its own (R281). -/
theorem exec_eq_fault_iff {i : Instr} {s : State} {f : Fault} :
    exec i s = .fault f ↔ executeFault i s = some f := by
  cases i with
  | call nnn =>
    cases hp : s.push s.pc with
    | ok u =>
      obtain ⟨hs, -⟩ := State.push_eq_ok.mp hp
      simp [exec, execCall, hp, executeFault, hs.ne]
    | error g =>
      obtain ⟨hs, rfl⟩ := State.push_eq_error.mp hp
      simp [exec, execCall, hp, executeFault, hs]
  | ret =>
    cases hp : s.pop with
    | ok r =>
      obtain ⟨hs, -⟩ := State.pop_eq_ok.mp hp
      simp [exec, execRet, hp, executeFault, hs.ne']
    | error g =>
      obtain ⟨hs, rfl⟩ := State.pop_eq_error.mp hp
      simp [exec, execRet, hp, executeFault, hs]
  | skp x | sknp x =>
    cases hn : s.namedKey (s.getV x) with
    | ok down =>
      obtain ⟨hk, -⟩ := State.namedKey_eq_ok.mp hn
      have hle : ¬15 < (s.getV x).toNat := by omega
      simp [exec, execSkp, execSknp, skipOnKey, skipOn, hn, executeFault, hle]
    | error g =>
      obtain ⟨hk, rfl⟩ := State.namedKey_eq_error.mp hn
      have hlt : 15 < (s.getV x).toNat := by omega
      simp [exec, execSkp, execSknp, skipOnKey, hn, executeFault, hlt]
  | drw x y n | ldB x | ldStore x | ldLoad x =>
    refine (checkRange_eq_fault fun _ => finish_ne_fault).trans ?_
    simp [executeFault, accessedBytes, and_assoc, eq_comm]
  | ldVxK x => cases hs : s.selectKey <;> simp [exec, execLdVxK, hs, executeFault]
  | _ => exact iff_of_false finish_ne_fault (by simp [executeFault])

/-- The waiting cycle ends in no condition (R262). -/
theorem waitCycle_ne_fault {s : State} {f : Fault} : waitCycle s ≠ .fault f := by
  cases hs : s.selectKey <;> simp [waitCycle, hs]

end Sys2Proof.Machine
end

section
/-! The statements about the execution cycle: how it moves between running and the key wait, and how it changes PC. -/

namespace Sys2Proof.Machine

/-- A step keeps the mode, enters the key wait by an FX0A that finds no key, or leaves it by finding one (R132). -/
theorem step_kwActive {s t : State} (h : step s = .next t) :
    t.kwActive = s.kwActive ∨
    (t.kwActive = true ∧ (∀ k, s.keyDown k = false) ∧
      ∃ x, decode s.fetchedWord = some (.ldVxK x) ∧ t.kwReg = x) ∨
    (t.kwActive = false ∧ ∃ k, s.keyDown k = true) := by
  rcases step_eq_next h with ⟨-, hw⟩ | ⟨-, -, i, hd, he⟩ | ⟨-, -, -, rfl⟩
  · rcases waitCycle_eq_next hw with ⟨-, rfl⟩ | ⟨k, hk, rfl⟩
    · exact .inl rfl
    · exact .inr (.inr ⟨rfl, k, hk⟩)
  · rcases exec_kwActive he with hkeep | ⟨hon, hup, x, rfl, hx⟩
    · exact .inl hkeep
    · exact .inr (.inl ⟨hon, hup, x, hd, hx⟩)
  · exact .inl rfl

/-- The host's step moves between the modes as the step does; after a condition the mode is as before (R131). -/
theorem hostStep_kwActive (rnd : Byte) (s : State) :
    (hostStep rnd s).2.kwActive = s.kwActive ∨
    ((hostStep rnd s).2.kwActive = true ∧ (∀ k, s.keyDown k = false) ∧
      ∃ x, decode s.fetchedWord = some (.ldVxK x) ∧ (hostStep rnd s).2.kwReg = x) ∨
    ((hostStep rnd s).2.kwActive = false ∧ ∃ k, s.keyDown k = true) := by
  unfold hostStep
  split
  · next t h => exact (step_kwActive h :)
  · exact .inl rfl
  · exact .inl rfl

/-- Beside a step only reset changes the mode, and it leaves the machine running (R330). -/
theorem hostOp_kwActive (op : HostOp) (s : State) :
    (hostOp op s).2.kwActive = s.kwActive ∨
    ((hostOp op s).2.kwActive = false ∧ op = .reset) ∨
    ∃ rnd, op = .step rnd := by
  cases op with
  | reset => exact .inr (.inl ⟨rfl, rfl⟩)
  | step rnd => exact .inr (.inr ⟨rnd, rfl⟩)
  | load rom =>
    left
    simp only [hostOp]
    split
    · exact s.writeBytes_kwActive _ rom
    · rfl
  | tick | getDisplay | consumeRedraw | soundTimer | setKey | dump => exact .inl rfl

/-- A step ends in a condition exactly when it is not waiting and its fetch is stopped, or the fetched instruction
meets its own condition (R290). -/
theorem step_eq_fault_iff {s : State} {f : Fault} :
    step s = .fault f ↔ s.kwActive = false ∧
      (s.fetchFault = some f ∨
        (s.fetchFault = none ∧ ∃ i, decode s.fetchedWord = some i ∧ executeFault i s = some f)) := by
  cases hk : s.kwActive with
  | true => simp [step_waiting hk, waitCycle_ne_fault]
  | false =>
    cases hf : s.fetchFault with
    | some g => simp [step_stopped hk hf]
    | none =>
      cases hd : decode s.fetchedWord with
      | none => simp [step_unknown hk hf hd, unknownWord]
      | some i => simp [step_decoded hk hf hd, exec_eq_fault_iff]

/-- No condition depends on the byte the host supplies with a step (R211). -/
theorem step_rndIn_eq_fault_iff {s : State} {rndIn : Option Byte} {f : Fault} :
    step { s with rndIn := rndIn } = .fault f ↔ step s = .fault f := by
  rw [step_eq_fault_iff, step_eq_fault_iff]
  rfl

/-- The host's step after a condition: the state as it was, with the report and the sticky mark (R131, R289). -/
theorem hostStep_of_fault {s : State} {f : Fault} (rnd : Byte) (h : step s = .fault f) :
    hostStep rnd s =
      (.result (.fatal f), { s with result := some (.fatal f), faulted := true, rndIn := none }) := by
  simp [hostStep, step_rndIn_eq_fault_iff.mpr h]

end Sys2Proof.Machine

namespace Sys2Proof.Proofs

open Sys2Proof.Machine

/-- Settles O46, from what each host operation and a step do to KW.active. -/
theorem modes : Obligations.Modes := by
  intro op s
  rcases hostOp_kwActive op s with hkeep | ⟨hoff, hreset⟩ | ⟨rnd, rfl⟩
  · exact ⟨fun h0 h1 => by simp [hkeep, h0] at h1, fun h1 h0 => by simp [hkeep, h1] at h0⟩
  · exact ⟨fun _ h1 => by simp [hoff] at h1, fun _ _ => .inl hreset⟩
  · rcases hostStep_kwActive rnd s with hkeep | ⟨hon, henter⟩ | ⟨hoff, hleave⟩
    · exact ⟨fun h0 h1 => by simp [hostOp, hkeep, h0] at h1, fun h1 h0 => by simp [hostOp, hkeep, h1] at h0⟩
    · exact ⟨fun _ _ => ⟨⟨rnd, rfl⟩, henter⟩, fun _ h0 => by simp [hostOp, hon] at h0⟩
    · exact ⟨fun _ h1 => by simp [hostOp, hoff] at h1, fun _ _ => .inr ⟨⟨rnd, rfl⟩, hleave⟩⟩

/-- Settles O47, by the three ways a step goes on, and from the state the host's step leaves after a condition. -/
theorem programCounterTable : Obligations.ProgramCounterTable := by
  refine fun rnd s => ⟨fun t h => ?_, fun f h => by rw [hostOp, hostStep_of_fault rnd h]⟩
  rcases step_eq_next h with ⟨hk, hw⟩ | ⟨hk, -, i, hd, he⟩ | ⟨hk, -, hd, rfl⟩
  · simpa [hk] using waitCycle_pc_toNat hw
  · simpa [hk, hd] using exec_pc_toNat he
  · simp [hk, hd]

end Sys2Proof.Proofs
end

section
/-! SUPPORT. A drawn sprite pixel by pixel: the bit that falls on a pixel is the one its place gives, and what a whole
drawing leaves of the display and of the collision flag. -/

namespace Sys2Proof.Machine

@[simp] theorem State.spriteBytes_length (s : State) (a n : Nat) : (s.spriteBytes a n).length = n := by
  simp [State.spriteBytes]

theorem State.spriteBytes_getD (s : State) (a : Nat) {n j : Nat} (h : j < n) :
    (s.spriteBytes a n).getD j 0 = s.readByte (a + j) := by
  simp [State.spriteBytes, h]

theorem lt_of_mem_spritePixels {cx cy row : Nat} {bs : List Byte} {e : Bool × Nat}
    (h : e ∈ spritePixels cx cy row bs) : e.2 < 2048 := by
  obtain ⟨_, _, -, -, -, hq⟩ := (mem_spritePixels cx cy row bs e.1 e.2).mp h
  exact hq ▸ pixIndex_lt _ _

/-- The sprite column and row that fall on a pixel are its distances from the start, mod 64 and mod 32 (R141). -/
theorem eq_pixIndex_iff {cx cy col row p : Nat} (hc : col < 64) (hr : row < 32) (hp : p < 2048) :
    p = pixIndex (cx + col) (cy + row) ↔
      col = (p % 64 + 64 - cx % 64) % 64 ∧ row = (p / 64 + 32 - cy % 32) % 32 := by
  unfold pixIndex
  omega

/-- A pixel's sprite bit is 1 exactly when it lies at the place of a sprite row and column whose bit is 1. -/
theorem State.spriteBit_eq_true (s : State) (x y n : Nib) (p : Nat) :
    s.spriteBit x y n p = true ↔
      ∃ row col, row < n.toNat ∧ col < 8 ∧ (s.readByte (s.i.toNat + row)).getLsbD (7 - col) = true ∧
        col = (p % 64 + 64 - (s.getV x).toNat % 64) % 64 ∧ row = (p / 64 + 32 - (s.getV y).toNat % 32) % 32 := by
  simp only [State.spriteBit, Bool.and_eq_true, decide_eq_true_eq]
  constructor
  · rintro ⟨⟨hc, hr⟩, hbit⟩
    exact ⟨_, _, hr, hc, hbit, rfl, rfl⟩
  · rintro ⟨_, _, hr, hc, hbit, rfl, rfl⟩
    exact ⟨⟨hc, hr⟩, hbit⟩

/-- The sprite that DRW draws has a 1 on a pixel exactly when the bit found from the pixel's place is 1. -/
theorem State.mem_spritePixels_iff_spriteBit (s : State) (x y n : Nib) {p : Nat} (hp : p < 2048) :
    (true, p) ∈ spritePixels (s.getV x).toNat (s.getV y).toNat 0 (s.spriteBytes s.i.toNat n.toNat) ↔
      s.spriteBit x y n p = true := by
  rw [mem_spritePixels, State.spriteBit_eq_true]
  refine exists_congr fun row => exists_congr fun col => ?_
  rw [State.spriteBytes_length, Nat.zero_add]
  refine and_congr_right fun hr => and_congr_right fun hc => ?_
  have hn := n.isLt
  rw [s.spriteBytes_getD _ hr, eq_pixIndex_iff (by omega) (by omega) hp, eq_comm (a := true)]

/-- What a whole drawing leaves: every pixel exclusive-ored with its sprite bit, and a collision exactly when a 1 met a
pixel that was 1 (R143). -/
theorem State.drawSprite_spec (s : State) (x y n : Nib) :
    (∀ p < 2048, (s.drawSprite x y n).fb.getLsbD p = (s.fb.getLsbD p ^^ s.spriteBit x y n p)) ∧
    ((s.drawSprite x y n).hit = true ↔
      ∃ p, p < 2048 ∧ s.spriteBit x y n p = true ∧ s.fb.getLsbD p = true) := by
  have hlen : (s.spriteBytes s.i.toNat n.toNat).length ≤ 32 := by
    have hn := n.isLt
    rw [State.spriteBytes_length]
    omega
  obtain ⟨hfb, hhit⟩ := Canvas.drawList_spec _ { fb := s.fb, hit := false } (spritePixels_nodup _ _ _ _ hlen)
    fun _ => lt_of_mem_spritePixels
  rw [State.drawSprite, Canvas.drawRows_eq]
  constructor
  · intro p hp
    rw [hfb p hp]
    simp only [s.mem_spritePixels_iff_spriteBit x y n hp, Bool.decide_eq_true]
  · rw [hhit, or_iff_right Bool.false_ne_true]
    refine exists_congr fun p => ⟨fun ⟨hm, hf⟩ => ?_, fun ⟨hp, hb, hf⟩ => ?_⟩
    · have hp : p < 2048 := lt_of_mem_spritePixels hm
      exact ⟨hp, (s.mem_spritePixels_iff_spriteBit x y n hp).mp hm, hf⟩
    · exact ⟨(s.mem_spritePixels_iff_spriteBit x y n hp).mpr hb, hf⟩

end Sys2Proof.Machine
end

section
/-! The statements about the display. -/

namespace Sys2Proof.Proofs

open Sys2Proof.Machine

/-- Settles O29, from what a whole drawing leaves of the display and of the collision flag. -/
theorem drawPixels : Obligations.DrawPixels := by
  intro x y n s t h
  obtain ⟨-, rfl⟩ := execDrw_eq_next h
  obtain ⟨hfb, hhit⟩ := s.drawSprite_spec x y n
  have hvf : ((s.showCanvas (s.drawSprite x y n)).nextPc.report (.ok true)).getV vf =
      flagByte (s.drawSprite x y n).hit := by
    simp [State.getV_showCanvas]
  refine ⟨hfb, fun hmet => ?_, fun hfree => ?_⟩
  · rw [hvf, hhit.mpr hmet]
    rfl
  · have hno : (s.drawSprite x y n).hit = false := by
      rw [← Bool.not_eq_true, hhit]
      rintro ⟨p, hp, hb, hf⟩
      simp [hfree p hp hb] at hf
    rw [hvf, hno]
    rfl

/-- Settles O27: the row of R100 from the encoder's word, and the next state written out. -/
theorem clearDisplay : Obligations.ClearDisplay :=
  ⟨decodesRow_o rfl, fun s => ⟨_, rfl, BitVec.toNat_add s.pc 2#16, rfl, fun _ _ => BitVec.getLsbD_zero, rfl, rfl,
    fun _ => rfl⟩⟩

end Sys2Proof.Proofs
end

section
/-! SUPPORT. The next state of a call with room on the stack and of a return with an entry held
(spec/42_control_flow.md). -/

namespace Sys2Proof.Machine

/-- A call pushes the address of its own word and jumps (R162). -/
theorem execCall_of_room (nnn : Imm12) {s : State} (hs : s.sp.val < 16) :
    execCall nnn s = .next (State.report
      { s with stack := s.stack.set s.sp.val s.pc hs, sp := ⟨s.sp.val + 1, by omega⟩, pc := zextAddr nnn }
      (.ok false)) := by
  rw [execCall, State.push_eq_ok.mpr ⟨hs, rfl⟩]
  rfl

/-- A return goes on behind the word whose address is the top entry, which stays in the stack (R160). -/
theorem execRet_of_held {s : State} (hs : 0 < s.sp.val) :
    execRet s = .next (State.report
      { s with sp := ⟨s.sp.val - 1, by omega⟩, pc := s.stack[s.sp.val - 1]'(by omega) + 2#16 } (.ok false)) := by
  rw [execRet, State.pop_eq_ok.mpr ⟨hs, rfl, rfl⟩]
  rfl

end Sys2Proof.Machine
end

section
/-! The statements about jumps, calls and returns. -/

namespace Sys2Proof.Proofs

open Sys2Proof.Machine

/-- Settles O23: the rows of R100 from the encoder's words, and PC from the table of R126. -/
theorem jumps : Obligations.Jumps := by
  refine ⟨decodesRow_a 0x1#4 fun _ => rfl, decodesRow_a 0xB#4 fun _ => rfl, fun nnn s => ⟨?_, ?_⟩⟩
  · exact ⟨_, rfl, ⟨exec_pc_toNat (i := .jp nnn) rfl, rfl⟩, rfl, fun _ => rfl⟩
  · exact ⟨_, rfl, ⟨exec_pc_toNat (i := .jpV0 nnn) rfl, rfl⟩, rfl, fun _ => rfl⟩

/-- Settles O24: with room the next state is the one of the push and the jump; without it the call meets its own
condition. -/
theorem call : Obligations.Call := by
  refine ⟨decodesRow_a 0x2#4 fun _ => rfl, fun nnn s => ⟨fun hs => ?_, fun hfull => ?_⟩⟩
  · have hnext : exec (.call nnn) s = _ := execCall_of_room nnn hs
    exact ⟨_, hnext, ⟨exec_pc_toNat hnext, rfl⟩, rfl, Vector.getElem_set_self hs,
      fun j hj hne => Vector.getElem_set_ne hs hj hne.symm, rfl, fun _ => rfl⟩
  · exact exec_eq_fault_iff.mpr (if_pos hfull)

/-- Settles O25: with an entry held the next state is the one of the pop and the return; without one the return meets
its own condition. -/
theorem return_ : Obligations.Return := by
  refine ⟨decodesRow_o rfl, fun s => ⟨fun hs => ?_, fun hempty => ?_⟩⟩
  · exact ⟨_, execRet_of_held hs, ⟨BitVec.toNat_add _ 2#16, rfl⟩, rfl, rfl, fun _ => rfl⟩
  · exact exec_eq_fault_iff.mpr (if_pos hempty)

end Sys2Proof.Proofs
end

section
/-! The statements about skips on an immediate and on a register. -/

namespace Sys2Proof.Machine

/-- Every skip on a condition completes: the next state is at PC + 4 or PC + 2 and nothing else changes (R127). -/
theorem skipOn_completes (s : State) (c : Bool) :
    ∃ t, skipOn c s = .next t ∧ t.okAt (s.pc.toNat + if c then 4 else 2) ∧ s.onlyPc t :=
  ⟨_, rfl, ⟨s.skipIf_pc_toNat c, rfl⟩, rfl, fun _ => rfl⟩

/-- A skip on two bytes being equal, with the condition read on their numbers (R180, R182). -/
theorem skipOn_beq_completes (s : State) (a b : Byte) :
    ∃ t, skipOn (a == b) s = .next t ∧ t.okAt (s.pc.toNat + if a.toNat = b.toNat then 4 else 2) ∧ s.onlyPc t := by
  simpa [BitVec.toNat_inj] using skipOn_completes s (a == b)

/-- A skip on two bytes being different, with the condition read on their numbers (R181, R183). -/
theorem skipOn_bne_completes (s : State) (a b : Byte) :
    ∃ t, skipOn (a != b) s = .next t ∧ t.okAt (s.pc.toNat + if a.toNat = b.toNat then 2 else 4) ∧ s.onlyPc t := by
  simpa [BitVec.toNat_inj] using skipOn_completes s (a != b)

end Sys2Proof.Machine

namespace Sys2Proof.Proofs

open Sys2Proof.Machine

/-- Settles O20: the rows of R100 from the encoder's words, and the two skips from the shared skip operation. -/
theorem skipImmediate : Obligations.SkipImmediate :=
  ⟨decodesRow_xk 0x3#4 fun _ => rfl, decodesRow_xk 0x4#4 fun _ => rfl,
    fun x nn s => ⟨skipOn_beq_completes s (s.getV x) nn, skipOn_bne_completes s (s.getV x) nn⟩⟩

/-- Settles O21: as for the immediate, with V[y] in its place. -/
theorem skipRegisters : Obligations.SkipRegisters :=
  ⟨decodesRow_xy 0x5#4 0x0#4 fun _ => rfl, decodesRow_xy 0x9#4 0x0#4 fun _ => rfl,
    fun x y s => ⟨skipOn_beq_completes s (s.getV x) (s.getV y), skipOn_bne_completes s (s.getV x) (s.getV y)⟩⟩

end Sys2Proof.Proofs
end

section
/-! The statements about register loads and additions. -/

namespace Sys2Proof.Machine

/-- A plain register result completes and writes its own register and no other (R22). -/
theorem writeReg_completes (x : Nib) (b : Byte) (s : State) :
    ∃ t, writeReg x b s = .next t ∧ t.okAt (s.pc.toNat + 2) ∧ t.getV x = b ∧ (∀ r, r ≠ x → t.getV r = s.getV r) ∧
      s.onlyRegs t :=
  ⟨_, rfl, ⟨BitVec.toNat_add s.pc 2#16, rfl⟩, s.getV_setV_same x b, fun _ => s.getV_setV_other b, rfl, fun _ => rfl⟩

theorem carryFlag_toNat (a b : Byte) : (carryFlag a b).toNat = if 255 < a.toNat + b.toNat then 1 else 0 := by
  simp [carryFlag, flagByte_toNat]

/-- 8XY4 completes, and its registers are those of the two writes with the carry second (R206). -/
theorem execAddReg_completes (x y : Nib) (s : State) :
    ∃ t, execAddReg x y s = .next t ∧ t.okAt (s.pc.toNat + 2) ∧
      (∀ r, t.getV r = if r = vf then carryFlag (s.getV x) (s.getV y) else
        if r = x then s.getV x + s.getV y else s.getV r) ∧
      s.onlyRegs t :=
  ⟨_, rfl, ⟨BitVec.toNat_add s.pc 2#16, rfl⟩, fun r => s.getV_writeThenFlag x r _ _, rfl, fun _ => rfl⟩

end Sys2Proof.Machine

namespace Sys2Proof.Proofs

open Sys2Proof.Machine

/-- Settles O12: the row of R100 from the encoder's word, and the shared plain register result. -/
theorem loadImmediate : Obligations.LoadImmediate :=
  ⟨decodesRow_xk 0x6#4 fun _ => rfl, fun x nn s => writeReg_completes x nn s⟩

/-- Settles O13: as for the load, with the bit-vector sum read as the sum mod 256. -/
theorem addImmediate : Obligations.AddImmediate := by
  refine ⟨decodesRow_xk 0x7#4 fun _ => rfl, fun x nn s => ?_⟩
  obtain ⟨t, hnext, hok, hx, hframe⟩ := writeReg_completes x (s.getV x + nn) s
  exact ⟨t, hnext, hok, hx ▸ BitVec.toNat_add (s.getV x) nn, hframe⟩

/-- Settles O14: as for the load, with V[y] in the immediate's place. -/
theorem copyRegister : Obligations.CopyRegister :=
  ⟨decodesRow_xy 0x8#4 0x0#4 fun _ => rfl, fun x y s => writeReg_completes x (s.getV y) s⟩

/-- Settles O16: the register file after the result and the carry, read at V[x], at VF and elsewhere. -/
theorem addWithCarry : Obligations.AddWithCarry := by
  refine ⟨decodesRow_xy 0x8#4 0x4#4 fun _ => rfl, fun x y s => ?_⟩
  obtain ⟨t, hnext, hok, hregs, honly⟩ := execAddReg_completes x y s
  refine ⟨t, hnext, hok, fun hx => ?_, ?_, fun r hrx hrf => ?_, honly⟩
  · rw [hregs x, if_neg hx, if_pos rfl]
    exact BitVec.toNat_add (s.getV x) (s.getV y)
  · rw [hregs vf, if_pos rfl, carryFlag_toNat]
  · rw [hregs r, if_neg hrf, if_neg hrx]

end Sys2Proof.Proofs
end

section
/-! The statement about loading the index register. -/

namespace Sys2Proof.Proofs

open Sys2Proof.Machine

/-- Settles O31: the row of R100 from the encoder's word, PC from the table of R126, and I as the value of the address. -/
theorem loadIndex : Obligations.LoadIndex := by
  refine ⟨decodesRow_a 0xA#4 fun _ => rfl, fun nnn s => ?_⟩
  exact ⟨_, rfl, ⟨exec_pc_toNat (i := .ldI nnn) rfl, rfl⟩, zextAddr_toNat nnn, rfl, fun _ => rfl⟩

end Sys2Proof.Proofs
end

section
/-! The statement about the transfers between a register and the two timers. -/

namespace Sys2Proof.Machine

theorem State.tone_eq_true (s : State) : s.tone = true ↔ s.st ≠ 0x00#8 :=
  bne_iff_ne

/-- FX15 completes, and nothing but DT, PC and the report differs (R263). -/
theorem execLdDt_completes (x : Nib) (s : State) :
    ∃ t, execLdDt x s = .next t ∧ t.okAt (s.pc.toNat + 2) ∧ t.dt = s.getV x ∧
      t = { s with dt := t.dt, pc := t.pc, result := t.result } ∧ s.sameBytes t :=
  ⟨_, rfl, ⟨exec_pc_toNat (i := .ldDt x) rfl, rfl⟩, rfl, rfl, fun _ => rfl⟩

/-- FX18 completes, and nothing but ST, PC and the report differs (R264). -/
theorem execLdSt_completes (x : Nib) (s : State) :
    ∃ t, execLdSt x s = .next t ∧ t.okAt (s.pc.toNat + 2) ∧ t.st = s.getV x ∧
      t = { s with st := t.st, pc := t.pc, result := t.result } ∧ s.sameBytes t :=
  ⟨_, rfl, ⟨exec_pc_toNat (i := .ldSt x) rfl, rfl⟩, rfl, rfl, fun _ => rfl⟩

end Sys2Proof.Machine

namespace Sys2Proof.Proofs

open Sys2Proof.Machine

/-- Settles O38: the rows of R100 from the encoder's words; FX07 as a plain register result, FX15 and FX18 from what
each completes with, and the tone from the ST that FX18 leaves (R305). -/
theorem timerTransfers : Obligations.TimerTransfers := by
  refine ⟨decodesRow_xs 0xF#4 0x07#8 fun _ => rfl, decodesRow_xs 0xF#4 0x15#8 fun _ => rfl,
    decodesRow_xs 0xF#4 0x18#8 fun _ => rfl, fun x s => ⟨?ldVxDt, ?ldDt, ?ldSt⟩⟩
  case ldVxDt => exact writeReg_completes x s.dt s
  case ldDt => exact execLdDt_completes x s
  case ldSt =>
    obtain ⟨t, hnext, hok, hst, hframe⟩ := execLdSt_completes x s
    exact ⟨t, hnext, hok, hst, hst ▸ t.tone_eq_true, hframe⟩

end Sys2Proof.Proofs
end

section
/-! SUPPORT. The keyboard latch over every host operation: what setKey, reset, load and a step do to it. -/

namespace Sys2Proof.Machine

theorem State.keyDown_congr {s t : State} (h : t.key = s.key) (k : Nib) : t.keyDown k = s.keyDown k := by
  unfold State.keyDown
  simp only [h]

/-- The latch after setKey: the one key as given, every other as it was (R306). -/
theorem State.keyDown_setKey (s : State) (index : Nib) (pressed : Bool) (k : Nib) :
    (s.setKey index pressed).keyDown k = if k = index then pressed else s.keyDown k := by
  simp only [State.keyDown, State.setKey, Vector.getElem_set, BitVec.toNat_inj, eq_comm (a := index)]

theorem State.keyDown_doReset (s : State) (k : Nib) : s.doReset.keyDown k = false :=
  Vector.getElem_replicate k.isLt

@[simp] theorem State.writeBytes_key (s : State) (a : Nat) (bs : List Byte) : (s.writeBytes a bs).key = s.key := by
  rw [State.writeBytes_eq]

/-- The host's step keeps the latch, after a condition too (R131). -/
theorem hostStep_key (rnd : Byte) (s : State) : (hostStep rnd s).2.key = s.key := by
  unfold hostStep
  split
  · next t h => exact (step_keeps h).1
  · rfl
  · rfl

theorem hostOp_load_key (rom : List Byte) (s : State) : (hostOp (.load rom) s).2.key = s.key := by
  rw [hostOp]
  split
  · exact s.writeBytes_key _ rom
  · rfl

end Sys2Proof.Machine
end

section
/-! The statements about the host's operations on the keyboard latch and on REDRAW. -/

namespace Sys2Proof.Proofs

open Sys2Proof.Machine

/-- Settles O45, host operation by host operation: reset and setKey write the latch, load and a step keep it by their
own lemmas, and the others do not touch it. -/
theorem keyboardLatch : Obligations.KeyboardLatch := by
  refine ⟨fun op s k => ?_, fun index pressed s => ⟨_, rfl, rfl, fun _ => rfl⟩⟩
  cases op with
  | reset => exact s.keyDown_doReset k
  | setKey index pressed => exact s.keyDown_setKey index pressed k
  | load rom => exact State.keyDown_congr (hostOp_load_key rom s) k
  | step rnd => exact State.keyDown_congr (hostStep_key rnd s) k
  | tick | getDisplay | consumeRedraw | soundTimer | dump => rfl

/-- Settles O56: the answer and the state are those the host operation is defined with (R304). -/
theorem consumeRedraw : Obligations.ConsumeRedraw :=
  fun _ => rfl

end Sys2Proof.Proofs
end

section
/-! SUPPORT. What an instruction stores and what it reports, for the invariant and for the statements about memory and
about results. -/

namespace Sys2Proof.Machine

/-! Shared operations -/

@[simp] theorem State.writeFlagged_mem (s : State) (x : Nib) (result flag : Byte) :
    (s.writeFlagged x result flag).mem = s.mem := by
  rw [State.writeFlagged_eq]

@[simp] theorem State.storeKey_mem (s : State) (x k : Nib) : (s.storeKey x k).mem = s.mem := by
  rw [State.storeKey_eq]

/-! Instructions -/

/-- Every instruction but FX33 and FX55 leaves memory as it was (R61). -/
theorem exec_mem_of_storedBytes_eq_zero {i : Instr} {s t : State} (h : exec i s = .next t) (hi : storedBytes i = 0) :
    t.mem = s.mem := by
  cases i with
  | ldB x | ldStore x => exact absurd hi (Nat.succ_ne_zero _)
  | ldVxK x =>
    rcases execLdVxK_eq_next h with ⟨-, rfl⟩ | ⟨k, -, rfl⟩
    · rfl
    · exact s.storeKey_mem x k
  | skp x => obtain ⟨-, rfl⟩ := skipOnKey_eq_next h; rfl
  | sknp x => obtain ⟨-, rfl⟩ := skipOnKey_eq_next h; rfl
  | ret => obtain ⟨-, rfl⟩ := execRet_eq_next h; rfl
  | call nnn => obtain ⟨-, rfl⟩ := execCall_eq_next h; rfl
  | drw x y n => obtain ⟨-, rfl⟩ := execDrw_eq_next h; rfl
  | ldLoad x => obtain ⟨-, rfl⟩ := execLdLoad_eq_next h; simp
  | sub x y | shr x y | shl x y =>
    obtain rfl := finish_eq_next.mp h
    exact s.writeFlagged_mem x _ _
  | _ =>
    obtain rfl := finish_eq_next.mp h
    rfl

/-- An instruction leaves memory with its stored bytes written from I on, all of them at addresses that exist (R61). -/
theorem exec_mem {i : Instr} {s t : State} (h : exec i s = .next t) :
    ∃ bs : List Byte, bs.length = storedBytes i ∧ (bs = [] ∨ s.i.toNat + bs.length ≤ memSize) ∧
      t.mem = (s.writeBytes s.i.toNat bs).mem := by
  by_cases hi : storedBytes i = 0
  · exact ⟨[], hi.symm, .inl rfl, exec_mem_of_storedBytes_eq_zero h hi⟩
  · cases i with
    | ldB x =>
      obtain ⟨hr, rfl⟩ := execLdB_eq_next h
      exact ⟨decimalDigits (s.getV x), rfl, .inr hr, rfl⟩
    | ldStore x =>
      obtain ⟨hr, rfl⟩ := execLdStore_eq_next h
      exact ⟨s.firstRegs x, s.firstRegs_length x, .inr (s.firstRegs_length x ▸ hr), rfl⟩
    | _ => exact absurd rfl hi

/-- An instruction reports `Ok`, with 1 exactly for CLS and DRW, or it is FX0A and reports that it waits (R128). -/
theorem exec_result {i : Instr} {s t : State} (h : exec i s = .next t) :
    t.result = some (.ok (writesDisplay i)) ∨ ∃ x, i = .ldVxK x ∧ t.result = some (.waitingForKey x) := by
  cases i with
  | ldVxK x =>
    rcases execLdVxK_eq_next h with ⟨-, rfl⟩ | ⟨k, -, rfl⟩
    · exact .inr ⟨x, rfl, rfl⟩
    · exact .inl rfl
  | skp x => obtain ⟨-, rfl⟩ := skipOnKey_eq_next h; exact .inl rfl
  | sknp x => obtain ⟨-, rfl⟩ := skipOnKey_eq_next h; exact .inl rfl
  | ret => obtain ⟨-, rfl⟩ := execRet_eq_next h; exact .inl rfl
  | call nnn => obtain ⟨-, rfl⟩ := execCall_eq_next h; exact .inl rfl
  | drw x y n => obtain ⟨-, rfl⟩ := execDrw_eq_next h; exact .inl rfl
  | ldB x => obtain ⟨-, rfl⟩ := execLdB_eq_next h; exact .inl rfl
  | ldStore x => obtain ⟨-, rfl⟩ := execLdStore_eq_next h; exact .inl rfl
  | ldLoad x => obtain ⟨-, rfl⟩ := execLdLoad_eq_next h; exact .inl rfl
  | _ =>
    obtain rfl := finish_eq_next.mp h
    exact .inl rfl

/-- An instruction that enters the key wait is FX0A of the waiting register, and reports it (R261). -/
theorem exec_enters_wait {i : Instr} {s t : State} (h : exec i s = .next t) (hs : s.kwActive = false)
    (ht : t.kwActive = true) : i = .ldVxK t.kwReg ∧ t.result = some (.waitingForKey t.kwReg) := by
  rcases exec_kwActive h with hkeep | ⟨-, hup, x, rfl, hx⟩
  · simp [hkeep, hs] at ht
  · rcases execLdVxK_eq_next h with ⟨-, rfl⟩ | ⟨k, hk, -⟩
    · exact ⟨rfl, rfl⟩
    · simp [hup k] at hk

end Sys2Proof.Machine
end

section
/-! SUPPORT. The invariant: reset meets it, and what keeps it. -/

namespace Sys2Proof.Machine

/-- The invariant read as: memory in canonical form, and a key wait with its word latched and reported. -/
theorem State.inv_iff (s : State) :
    s.inv ↔ s.memWf = true ∧
      (s.kwActive = true → s.ir = encode (.ldVxK s.kwReg) ∧ s.result = some (.waitingForKey s.kwReg)) := by
  cases hk : s.kwActive <;> simp [State.inv, State.waitLatched, State.waitReported, hk]

/-- A running machine has memory in canonical form as its whole invariant. -/
theorem State.inv_of_running {s : State} (hm : s.memWf = true) (hk : s.kwActive = false) : s.inv :=
  s.inv_iff.mpr ⟨hm, fun h => by simp [hk] at h⟩

theorem State.inv_resetWith (params : Config.Params) (draws : Nat) : (State.resetWith params draws).inv :=
  State.inv_of_running rfl rfl

theorem State.memWf_congr {s t : State} (hm : t.mem = s.mem) (hp : t.params = s.params) : t.memWf = s.memWf := by
  simp [State.memWf, State.base, hm, hp]

/-- Bytes written where addresses exist keep the canonical form. -/
theorem State.memWf_writeBytes {s : State} {a : Nat} {bs : List Byte} (hr : bs = [] ∨ a + bs.length ≤ memSize)
    (h : s.memWf = true) : (s.writeBytes a bs).memWf = true := by
  rcases hr with rfl | hr
  · exact h
  · rw [State.writeBytes_eq]
    exact State.writeBytes_wf hr h

@[simp] theorem State.writeBytes_params (s : State) (a : Nat) (bs : List Byte) :
    (s.writeBytes a bs).params = s.params := by
  rw [State.writeBytes_eq]

/-- No instruction leaves the canonical form of memory. -/
theorem exec_memWf {i : Instr} {s t : State} (h : exec i s = .next t) (hm : s.memWf = true) : t.memWf = true := by
  obtain ⟨bs, -, hr, hmem⟩ := exec_mem h
  obtain ⟨-, -, -, -, hp⟩ := exec_keeps h
  rw [State.memWf_congr hmem (by simp [hp])]
  exact State.memWf_writeBytes hr hm

/-- An instruction executed with its own word latched keeps the invariant. -/
theorem exec_inv {i : Instr} {s t : State} (h : exec i s = .next t) (hir : s.ir = encode i)
    (hk : s.kwActive = false) (hm : s.memWf = true) : t.inv := by
  obtain ⟨-, hkir, -⟩ := exec_keeps h
  refine t.inv_iff.mpr ⟨exec_memWf h hm, fun ht => ?_⟩
  obtain ⟨hi, hres⟩ := exec_enters_wait h hk ht
  exact ⟨by rw [hkir, hir, ← hi], hres⟩

/-- The waiting cycle keeps the invariant: it goes on as it was, or it ends the wait. -/
theorem waitCycle_inv {s t : State} (h : waitCycle s = .next t) (hs : s.inv) : t.inv := by
  obtain ⟨hm, hwait⟩ := s.inv_iff.mp hs
  rcases waitCycle_eq_next h with ⟨-, rfl⟩ | ⟨k, -, rfl⟩
  · exact (State.inv_iff _).mpr ⟨hm, fun hk => ⟨(hwait hk).1, rfl⟩⟩
  · refine State.inv_of_running ?_ rfl
    rw [← hm]
    exact State.memWf_congr (s.storeKey_mem s.kwReg k) (by simp [State.storeKey_eq])

/-- Every step keeps the invariant, in each of the three ways it goes on. -/
theorem step_inv {s t : State} (h : step s = .next t) (hs : s.inv) : t.inv := by
  have hm : s.memWf = true := (s.inv_iff.mp hs).1
  rcases step_eq_next h with ⟨-, hw⟩ | ⟨hk, -, i, hd, he⟩ | ⟨hk, -, -, rfl⟩
  · exact waitCycle_inv hw hs
  · exact exec_inv he (decode_eq_some_iff_encode.mp hd).symm hk hm
  · exact State.inv_of_running hm hk

/-- The host's step keeps the invariant: a step that ends in a condition was not in a key wait. -/
theorem hostStep_inv (rnd : Byte) {s : State} (hs : s.inv) : (hostStep rnd s).2.inv := by
  unfold hostStep
  split
  · next t h =>
    have ht : t.inv := step_inv h hs
    exact ht
  · next f h =>
    obtain ⟨hk, -⟩ := step_eq_fault_iff.mp (step_rndIn_eq_fault_iff.mp h)
    exact State.inv_of_running (s.inv_iff.mp hs).1 hk
  · exact hs

/-- A load keeps the invariant: it writes existing addresses, or nothing. -/
theorem hostOp_load_inv (rom : List Byte) {s : State} (hs : s.inv) : (hostOp (.load rom) s).2.inv := by
  obtain ⟨hm, hwait⟩ := s.inv_iff.mp hs
  rw [hostOp]
  split
  · next hfit =>
    refine (State.inv_iff _).mpr ⟨State.memWf_writeBytes (.inr (of_decide_eq_true hfit)) hm, ?_⟩
    rw [State.writeBytes_eq]
    exact hwait
  · exact hs

/-- Every host operation keeps the invariant. -/
theorem hostOp_inv (op : HostOp) {s : State} (hs : s.inv) : (hostOp op s).2.inv := by
  cases op with
  | reset => exact State.inv_resetWith s.params s.draws
  | load rom => exact hostOp_load_inv rom hs
  | step rnd => exact hostStep_inv rnd hs
  | tick | getDisplay | consumeRedraw | soundTimer | setKey | dump => exact hs

/-- No host operation writes the parameters (R10). -/
theorem hostOp_params (op : HostOp) (s : State) : (hostOp op s).2.params = s.params := by
  cases op with
  | load rom =>
    rw [hostOp]
    split
    · exact s.writeBytes_params _ rom
    · rfl
  | step rnd =>
    rw [hostOp, hostStep]
    split
    · next t h =>
      obtain ⟨-, -, hp⟩ := step_keeps h
      exact hp
    · rfl
    · rfl
  | reset | tick | getDisplay | consumeRedraw | soundTimer | setKey | dump => rfl

/-- What every host operation keeps holds after any sequence of them. -/
theorem hostRun_induction {P : State → Prop} (hop : ∀ op s, P s → P (hostOp op s).2) (ops : List HostOp) :
    ∀ s, P s → P (hostRun ops s) := by
  induction ops with
  | nil => exact fun _ hs => hs
  | cons op rest ih => exact fun s hs => ih _ (hop op s hs)

/-- Every state of every run meets the invariant. -/
theorem State.inv_reachedBy (params : Config.Params) (rom : List Byte) (ops : List HostOp) :
    (State.reachedBy params rom ops).inv :=
  hostRun_induction (fun op _ hs => hostOp_inv op hs) ops _ (hostOp_inv (.load rom) (State.inv_resetWith params 0))

end Sys2Proof.Machine
end

section
/-! The statements about the invariant. -/

namespace Sys2Proof.Proofs

open Sys2Proof.Machine

/-- Settles O53, by the three ways a step goes on. -/
theorem stepKeepsInv : Obligations.StepKeepsInv :=
  fun _ _ hs h => step_inv h hs

/-- Settles O54: each host operation keeps the invariant, and a run by induction over its operations. -/
theorem hostOpKeepsInv : Obligations.HostOpKeepsInv :=
  ⟨fun op s hs => ⟨hostOp_inv op hs, hostOp_params op s⟩, State.inv_reachedBy⟩

/-- Settles O52. -/
theorem resetInv : Obligations.ResetInv :=
  ⟨State.inv_resetWith defaultParams 0, State.inv_resetWith⟩

end Sys2Proof.Proofs
end

section
/-! SUPPORT. The rows of spec/30_encoding.md R100 that match a word, and the words the decoder rejects (R101, R102). -/

namespace Sys2Proof

/-! The word of an instruction has its row's match under its row's mask -/

theorem packA_maskHigh (o : Nib) (nnn : Imm12) : (o ++ nnn : Word) &&& 0xF000#16 = o ++ 0#12 :=
  maskHigh_eq_iff.mpr (fieldOp_packA o nnn)

theorem packXK_maskHigh (o x : Nib) (nn : Byte) : (o ++ x ++ nn : Word) &&& 0xF000#16 = o ++ 0#12 :=
  maskHigh_eq_iff.mpr (fieldOp_packXK o x nn)

theorem packXYN_maskHigh (o x y n : Nib) : (o ++ x ++ y ++ n : Word) &&& 0xF000#16 = o ++ 0#12 :=
  maskHigh_eq_iff.mpr (fieldOp_packXYN o x y n)

theorem packXYN_maskHighNibble (o x y s : Nib) :
    (o ++ x ++ y ++ s : Word) &&& 0xF00F#16 = o ++ 0#4 ++ 0#4 ++ s :=
  maskHighNibble_eq_iff.mpr ⟨fieldOp_packXYN o x y s, fieldN_packXYN o x y s⟩

theorem packXK_maskHighByte (o x : Nib) (s : Byte) : (o ++ x ++ s : Word) &&& 0xF0FF#16 = o ++ 0#4 ++ s :=
  maskHighByte_eq_iff.mpr ⟨fieldOp_packXK o x s, fieldNN_packXK o x s⟩

theorem Row.matchesWord_iff {r : Row} {w : Word} : r.matchesWord w = true ↔ w &&& r.mask = r.value :=
  beq_iff_eq

/-- Every instruction has a row, which matches its word (R100). -/
theorem Instr.row_matches_encode (i : Instr) :
    ∃ r, rowOf i.rowNumber = some r ∧ r.matchesWord (encode i) = true := by
  simp only [Row.matchesWord_iff]
  cases i with
  | cls | ret => exact ⟨_, rfl, rfl⟩
  | jp nnn | call nnn | ldI nnn | jpV0 nnn => exact ⟨_, rfl, packA_maskHigh _ nnn⟩
  | seImm x nn | sneImm x nn | ldImm x nn | addImm x nn | rnd x nn => exact ⟨_, rfl, packXK_maskHigh _ x nn⟩
  | seReg x y | ldReg x y | orReg x y | andReg x y | xorReg x y | addReg x y | sub x y | shr x y | shl x y
  | sneReg x y => exact ⟨_, rfl, packXYN_maskHighNibble _ x y _⟩
  | drw x y n => exact ⟨_, rfl, packXYN_maskHigh _ x y n⟩
  | skp x | sknp x | ldVxDt x | ldVxK x | ldDt x | ldSt x | addI x | ldF x | ldB x | ldStore x | ldLoad x =>
    exact ⟨_, rfl, packXK_maskHighByte _ x _⟩

/-- A row is read when the decoder answers an instruction of it on every word it matches. -/
def Row.Read (r : Row) : Prop :=
  ∀ w, r.matchesWord w = true → ∃ i, decode w = some i ∧ rowOf i.rowNumber = some r

theorem Row.Read.of_decodesRow {r : Row} {mk : Word → Instr} (h : Machine.decodesRow r.mask r.value mk)
    (hr : ∀ w, rowOf (mk w).rowNumber = some r := by exact fun _ => rfl) : r.Read :=
  fun w hw => ⟨mk w, (h w).mpr (Row.matchesWord_iff.mp hw), hr w⟩

/-- Every row of R100 is read, from the decoder's agreement with the table. -/
theorem opcodeTable_read : ∀ r ∈ opcodeTable, r.Read := by
  obtain ⟨cls, ret, jp, call, seImm, sneImm, seReg, ldImm, addImm, ldReg, orReg, andReg, xorReg, addReg, sub, shr, shl,
    sneReg, ldI, jpV0, rnd, drw, skp, sknp, ldVxDt, ldVxK, ldDt, ldSt, addI, ldF, ldB, ldStore, ldLoad⟩ :=
    Proofs.decodeFollowsTable
  simp only [opcodeTable, opcodeRowsA, opcodeRowsB, opcodeRowsC, List.cons_append, List.nil_append,
    List.forall_mem_cons]
  exact ⟨.of_decodesRow cls, .of_decodesRow ret, .of_decodesRow jp, .of_decodesRow call, .of_decodesRow seImm,
    .of_decodesRow sneImm, .of_decodesRow seReg, .of_decodesRow ldImm, .of_decodesRow addImm, .of_decodesRow ldReg,
    .of_decodesRow orReg, .of_decodesRow andReg, .of_decodesRow xorReg, .of_decodesRow addReg, .of_decodesRow sub,
    .of_decodesRow shr, .of_decodesRow shl, .of_decodesRow sneReg, .of_decodesRow ldI, .of_decodesRow jpV0,
    .of_decodesRow rnd, .of_decodesRow drw, .of_decodesRow skp, .of_decodesRow sknp, .of_decodesRow ldVxDt,
    .of_decodesRow ldVxK, .of_decodesRow ldDt, .of_decodesRow ldSt, .of_decodesRow addI, .of_decodesRow ldF,
    .of_decodesRow ldB, .of_decodesRow ldStore, .of_decodesRow ldLoad, List.forall_mem_nil _⟩

/-- No row stands twice in the table. -/
theorem opcodeTable_nodup : opcodeTable.Nodup := by
  decide

theorem mem_opcodeTable_of_rowOf {n : Nat} {r : Row} (h : rowOf n = some r) : r ∈ opcodeTable := by
  unfold rowOf at h
  split at h
  · cases h
  · exact List.mem_of_getElem? h

theorem mem_rowsMatching {r : Row} {w : Word} : r ∈ rowsMatching w ↔ r ∈ opcodeTable ∧ r.matchesWord w = true :=
  List.mem_filter

/-- The one row that matches a decoded word is the instruction's own (R101). -/
theorem rowsMatching_of_decode {w : Word} {i : Instr} (h : decode w = some i) :
    ∃ r, rowOf i.rowNumber = some r ∧ rowsMatching w = [r] := by
  obtain ⟨r, hr, hm⟩ := i.row_matches_encode
  rw [decode_eq_some_iff_encode.mp h] at hm
  refine ⟨r, hr, List.perm_singleton.mp ?_⟩
  refine (List.perm_ext_iff_of_nodup (opcodeTable_nodup.filter _) (List.nodup_singleton r)).mpr fun r' =>
    mem_rowsMatching.trans ?_
  rw [List.mem_singleton]
  constructor
  · rintro ⟨ht, hm'⟩
    obtain ⟨i', hi', hr'⟩ := opcodeTable_read r' ht w hm'
    obtain rfl : i = i' := Option.some.inj (h.symm.trans hi')
    exact Option.some.inj (hr'.symm.trans hr)
  · rintro rfl
    exact ⟨mem_opcodeTable_of_rowOf hr, hm⟩

/-- A word the decoder rejects is matched by no row (R102). -/
theorem matchesWord_of_decode_eq_none {w : Word} (h : decode w = none) :
    ∀ r ∈ opcodeTable, ¬r.matchesWord w = true := by
  intro r ht hm
  obtain ⟨i, hi, -⟩ := opcodeTable_read r ht w hm
  simp [h] at hi

/-! The rejected words, family by family -/

theorem decodeSystem_eq_error {w : Word} {e : Reject} :
    decodeSystem w = .error e ↔ e = .system ∧ (fieldNNN w).toNat ≠ 0x0E0 ∧ (fieldNNN w).toNat ≠ 0x0EE := by
  unfold decodeSystem
  split <;> simp_all [eq_comm]

theorem decodeAlu_eq_error {w : Word} {e : Reject} :
    decodeAlu w = .error e ↔ e = .alu ∧ (fieldN w).toNat ∈ [7, 8, 9, 10, 11, 12, 13, 15] := by
  have hlt := (fieldN w).isLt
  unfold decodeAlu
  split
  case h_9 =>
    have hmem : (fieldN w).toNat ∈ [7, 8, 9, 10, 11, 12, 13, 15] := by
      simp only [imp_false] at *
      simp only [List.mem_cons, List.not_mem_nil, or_false]
      omega
    simp [hmem, eq_comm]
  all_goals simp_all

theorem decodeKeySkip_eq_error {w : Word} {e : Reject} :
    decodeKeySkip w = .error e ↔ e = .keySkip ∧ (fieldNN w).toNat ∉ [0x9E, 0xA1] := by
  unfold decodeKeySkip
  split <;> simp_all [eq_comm]

theorem decodeMisc_eq_error {w : Word} {e : Reject} :
    decodeMisc w = .error e ↔
      e = .misc ∧ (fieldNN w).toNat ∉ [0x07, 0x0A, 0x15, 0x18, 0x1E, 0x29, 0x33, 0x55, 0x65] := by
  unfold decodeMisc
  split <;> simp_all [eq_comm]

/-- Only the families 0, 5, 8, 9, E and F reject a word (R102). -/
theorem decodeWord_eq_error {w : Word} {e : Reject} :
    decodeWord w = .error e ↔
      ((fieldOp w).toNat = 0x0 ∧ decodeSystem w = .error e) ∨
      ((fieldOp w).toNat = 0x5 ∧ e = .seReg ∧ fieldN w ≠ 0x0#4) ∨
      ((fieldOp w).toNat = 0x8 ∧ decodeAlu w = .error e) ∨
      ((fieldOp w).toNat = 0x9 ∧ e = .sneReg ∧ fieldN w ≠ 0x0#4) ∨
      ((fieldOp w).toNat = 0xE ∧ decodeKeySkip w = .error e) ∨
      ((fieldOp w).toNat = 0xF ∧ decodeMisc w = .error e) := by
  unfold decodeWord
  split
  case h_16 =>
    have hlt := (fieldOp w).isLt
    have hop : (fieldOp w).toNat = 15 := by
      simp only [imp_false] at *
      omega
    simp [hop]
  case h_6 hop | h_10 hop => split <;> simp_all [eq_comm (a := e)]
  all_goals simp_all

end Sys2Proof
end

section
/-! The statements about the rows that match a word and about the unknown words. -/

namespace Sys2Proof.Proofs

open Sys2Proof.Machine

/-- Settles O4: a matching row's instruction is the one decoded, so the row is that instruction's own. -/
theorem oneRowOrUnknown : Obligations.OneRowOrUnknown := by
  intro w
  cases h : decode w with
  | some i => exact rowsMatching_of_decode h
  | none =>
    have hno := matchesWord_of_decode_eq_none h
    exact ⟨List.filter_eq_nil_iff.mpr hno, List.any_eq_false.mpr hno⟩

/-- Settles O5: the rejections of the families, with the fields of R91 as the word divided and reduced. -/
theorem unknownWordClasses : Obligations.UnknownWordClasses := by
  intro w
  have hop : (fieldOp w).toNat = w.toNat / 4096 := by
    have hlt := w.isLt
    rw [fieldOp_toNat]
    omega
  have hsystem : w.toNat / 4096 = 0 ∧ w.toNat % 4096 ≠ 0x0E0 ∧ w.toNat % 4096 ≠ 0x0EE ↔
      w.toNat < 0x1000 ∧ w.toNat ≠ 0x00E0 ∧ w.toNat ≠ 0x00EE := by
    omega
  simpa [decodeWord_eq_error, decodeSystem_eq_error, decodeAlu_eq_error, decodeKeySkip_eq_error,
    decodeMisc_eq_error, hop, fieldNNN_toNat, fieldNN_toNat, fieldN_toNat, ← BitVec.toNat_inj] using hsystem

/-- Settles O6, each word by running the decoder on its two bytes. -/
theorem decodedWords : Obligations.DecodedWords :=
  ⟨rfl, rfl, rfl, rfl, rfl, rfl, rfl, rfl⟩

end Sys2Proof.Proofs
end

section
/-! SUPPORT. The outcomes of a step and of the host's step: which results they report, and that nothing is refused. -/

namespace Sys2Proof.Machine

/-! No instruction of the model is refused -/

theorem checkRange_ne_refused {base n : Nat} {body : Out} {q : Refusal} (hb : body ≠ .refused q) :
    checkRange base n body ≠ .refused q := by
  unfold checkRange
  split
  · exact raise_ne_refused
  · exact hb

theorem skipOnKey_ne_refused {x : Nib} {wanted : Bool} {s : State} {q : Refusal} :
    skipOnKey x wanted s ≠ .refused q := by
  cases hn : s.namedKey (s.getV x) <;> simp [skipOnKey, skipOn, hn]

theorem exec_ne_refused {i : Instr} {s : State} {q : Refusal} : exec i s ≠ .refused q := by
  cases i with
  | call nnn => cases hp : s.push s.pc <;> simp [exec, execCall, hp]
  | ret => cases hp : s.pop <;> simp [exec, execRet, hp]
  | ldVxK x => cases hs : s.selectKey <;> simp [exec, execLdVxK, hs]
  | skp x | sknp x => exact skipOnKey_ne_refused
  | drw x y n | ldB x | ldStore x | ldLoad x => exact checkRange_ne_refused finish_ne_refused
  | _ => exact finish_ne_refused

theorem waitCycle_ne_refused {s : State} {q : Refusal} : waitCycle s ≠ .refused q := by
  cases hs : s.selectKey <;> simp [waitCycle, hs]

theorem step_ne_refused {s : State} {q : Refusal} : step s ≠ .refused q := by
  unfold step
  split
  · exact waitCycle_ne_refused
  · split
    · exact raise_ne_refused
    · split
      · exact exec_ne_refused
      · exact finish_ne_refused

/-! Results -/

/-- The result of a step that goes on: never a fatal condition (R128). -/
theorem step_result {s t : State} (h : step s = .next t) :
    (∃ redraw, t.result = some (.ok redraw)) ∨ (∃ x, t.result = some (.waitingForKey x)) ∨
      t.result = some (.unknownOpcode s.fetchedWord) := by
  rcases step_eq_next h with ⟨-, hw⟩ | ⟨-, -, i, -, he⟩ | ⟨-, -, -, rfl⟩
  · rcases waitCycle_eq_next hw with ⟨-, rfl⟩ | ⟨k, -, rfl⟩
    · exact .inr (.inl ⟨_, rfl⟩)
    · exact .inl ⟨_, rfl⟩
  · rcases exec_result he with hok | ⟨x, -, hwait⟩
    · exact .inl ⟨_, hok⟩
    · exact .inr (.inl ⟨x, hwait⟩)
  · exact .inr (.inr rfl)

/-- A step that goes on reports a result, and no fatal condition. -/
theorem step_reports {s t : State} (h : step s = .next t) : ∃ r, t.result = some r ∧ ∀ f, r ≠ .fatal f := by
  rcases step_result h with ⟨redraw, hr⟩ | ⟨x, hr⟩ | hr <;> exact ⟨_, hr, fun _ => by simp⟩

/-- The host's step answers the result of a step that goes on, which is no fatal condition, with the state it left; or
the condition the step ends in, with the state as it was but for the report and the mark (R131, R289). -/
theorem hostStep_cases (rnd : Byte) (s : State) :
    (∃ t r, step { s with rndIn := some rnd } = .next t ∧ (∀ f, r ≠ .fatal f) ∧
      hostStep rnd s = (.result r, { t with rndIn := none })) ∨
    ∃ f, step s = .fault f ∧ hostStep rnd s =
      (.result (.fatal f), { s with result := some (.fatal f), faulted := true, rndIn := none }) := by
  cases h : step { s with rndIn := some rnd } with
  | next t =>
    obtain ⟨r, hr, hno⟩ := step_reports h
    exact .inl ⟨t, r, rfl, hno, by simp only [hostStep, h, hr]⟩
  | fault f =>
    have hf : step s = .fault f := step_rndIn_eq_fault_iff.mp h
    exact .inr ⟨f, hf, hostStep_of_fault rnd hf⟩
  | refused q => exact absurd h step_ne_refused

/-- The host's step answers a fatal condition exactly when the step ends in it. -/
theorem hostStep_fatal_iff {rnd : Byte} {s : State} {f : Fault} :
    (hostStep rnd s).1 = .result (.fatal f) ↔ step s = .fault f := by
  constructor
  · intro h
    rcases hostStep_cases rnd s with ⟨t, r, -, hr, heq⟩ | ⟨g, hg, heq⟩
    · rw [heq] at h
      exact absurd (HostOut.result.inj h) (hr f)
    · rw [heq] at h
      obtain rfl : g = f := Result.fatal.inj (HostOut.result.inj h)
      exact hg
  · intro h
    rw [hostStep_of_fault rnd h]

end Sys2Proof.Machine
end

section
/-! The statements about the results and the conditions of a step. -/

namespace Sys2Proof.Proofs

open Sys2Proof.Machine

/-- Settles O11: a step from the three ways it goes on, an instruction from the result it reports. -/
theorem stepAlwaysReports : Obligations.StepAlwaysReports := by
  refine ⟨fun s => ?_, fun i s t h => ?_⟩
  · cases h : step s with
    | next t => exact step_result h
    | fault f => trivial
    | refused q => exact step_ne_refused h
  · rcases exec_result h with hok | ⟨x, rfl, hwait⟩
    · simp [hok]
    · simp [hwait, writesDisplay]

/-- Settles O48, from when a step ends in a condition. -/
theorem conditionsExactly : Obligations.ConditionsExactly :=
  fun _ _ => step_eq_fault_iff

/-- Settles O49: the step ends in the condition, and the state it leaves differs in no field a condition depends on. -/
theorem fatalChangesNothing : Obligations.FatalChangesNothing := by
  intro rnd rnd' s f h
  have hf : step s = .fault f := hostStep_fatal_iff.mp h
  have hcond := step_eq_fault_iff.mp hf
  rw [hostOp, hostStep_of_fault rnd hf]
  exact ⟨rfl, hostStep_fatal_iff.mpr (step_eq_fault_iff.mpr hcond)⟩

end Sys2Proof.Proofs
end

section
/-! SUPPORT. The fetch and the words it hands on. -/

namespace Sys2Proof

/-- Two bytes decode to an instruction exactly when the word they make does (R62). -/
theorem decodeBytes_pair_eq_ok {hi lo : Byte} {i : Instr} :
    decodeBytes [hi, lo] = .ok (i, []) ↔ decode (wordOfBytes hi lo) = some i := by
  rw [decodeBytes_cons, decode_eq_some]
  cases decodeWord (wordOfBytes hi lo) <;> simp [Except.map]

end Sys2Proof

namespace Sys2Proof.Machine

/-- An odd PC stops the fetch under ODD_PC_POLICY = fault (R122). -/
theorem State.fetchFault_of_odd {s : State} (hodd : s.pc.toNat % 2 = 1) (hp : s.params.oddPc = .fault) :
    s.fetchFault = some (.misalignedFetch s.pc) :=
  if_pos ⟨hodd, hp⟩

/-- A fetch that may be odd is stopped by the lower of its two addresses that does not exist (R122). -/
theorem State.fetchFault_of_out {s : State} (hal : s.pc.toNat % 2 = 0 ∨ s.params.oddPc = .fetch)
    (hout : 0xFFF < s.pc.toNat + 1) : s.fetchFault = some (.addressOutOfRange (max s.pc.toNat 0x1000)) := by
  have hna : ¬(s.pc.toNat % 2 = 1 ∧ s.params.oddPc = .fault) := by
    rintro ⟨hodd, hp⟩
    rcases hal with h | h
    · omega
    · simp [h] at hp
  rw [State.fetchFault, if_neg hna]
  by_cases h : 0xFFF < s.pc.toNat
  · rw [if_pos h, Nat.max_eq_left h]
  · have hpc : s.pc.toNat + 1 = 0x1000 := by omega
    rw [if_neg h, if_pos hout, hpc, Nat.max_eq_right (by omega)]

/-- The fetched word sees only PC and memory. -/
theorem State.fetchedWord_congr {s t : State} (hpc : t.pc = s.pc) (hb : s.sameBytes t) :
    t.fetchedWord = s.fetchedWord := by
  rw [State.fetchedWord, hpc, hb, hb, State.fetchedWord]

/-- Nothing stops the fetch of an idle state (R133). -/
theorem State.fetchFault_of_idle {s : State} (h : s.idle) : s.fetchFault = none := by
  obtain ⟨-, hin, heven, -⟩ := h
  exact State.fetchFault_eq_none.mpr ⟨.inl heven, hin⟩

/-- Idleness sees only KW.active, PC and memory. -/
theorem State.idle_congr {s t : State} (hk : t.kwActive = s.kwActive) (hpc : t.pc = s.pc) (hb : s.sameBytes t) :
    t.idle ↔ s.idle := by
  rw [State.idle, State.idle, hk, hpc, State.fetchedWord_congr hpc hb]

/-- The step of an idle state is its jump, which leaves PC where it is (R133). -/
theorem step_of_idle {s : State} (h : s.idle) : step s = .next ((s.latch s.fetchedWord).report (.ok false)) := by
  have hf := State.fetchFault_of_idle h
  obtain ⟨hk, -, -, nnn, hd, hn⟩ := h
  have hpc : zextAddr nnn = s.pc := BitVec.eq_of_toNat_eq (by rw [zextAddr_toNat, hn])
  rw [step_decoded hk hf hd, exec, execJp, hpc]
  rfl

end Sys2Proof.Machine
end

section
/-! The statements about the fetch, the decoded and the unknown word, and the idle state. -/

namespace Sys2Proof.Proofs

open Sys2Proof.Machine

/-- Settles O7: the latched word is the instruction's own, since encoding gives a decoded word back. -/
theorem stepRunsDecoded : Obligations.StepRunsDecoded := by
  intro s i hk hf hb
  have hd : decode s.fetchedWord = some i := decodeBytes_pair_eq_ok.mp hb
  refine ⟨Laws.Instr_wellFormed_all i, ?_⟩
  rw [step_decoded hk hf hd, decode_eq_some_iff_encode.mp hd]
  rfl

/-- Settles O8, from the two ways a fetch is stopped. -/
theorem fetchChecks : Obligations.FetchChecks :=
  fun _ => ⟨fun hk hodd hp => step_stopped hk (State.fetchFault_of_odd hodd hp),
    fun hk hal hout => step_stopped hk (State.fetchFault_of_out hal hout), State.fetchFault_eq_none⟩

/-- Settles O9: the next state of the unknown word's cycle written out. -/
theorem unknownWordStep : Obligations.UnknownWordStep :=
  fun s hk hf hd => ⟨_, step_unknown hk hf hd, BitVec.toNat_add s.pc 2#16, rfl, rfl, fun _ => rfl⟩

/-- Settles O59: the jump's next state differs from the idle state in IR and the report alone. -/
theorem idleStaysIdle : Obligations.IdleStaysIdle :=
  fun _ h => ⟨_, step_of_idle h, rfl, rfl, (State.idle_congr rfl rfl fun _ => rfl).mpr h⟩

end Sys2Proof.Proofs
end

section
/-! SUPPORT. The key that FX0A and the waiting cycle store, and the skips on a key (spec/46_timers_keyboard.md). -/

namespace Sys2Proof.Machine

/-- With a key pressed the selection answers a pressed key, the lowest one under KEY_WAIT_SELECT = lowest (R265). -/
theorem State.selectKey_spec {s : State} {k : Nib} (hk : s.keyDown k = true) :
    ∃ j, s.selectKey = some j ∧ s.keyDown j = true ∧ (s.params.keySelect = .lowest → j.toNat ≤ k.toNat) := by
  obtain ⟨j, hs, hj⟩ := State.selectKey_of_down hk
  exact ⟨j, hs, hj, fun hl => State.selectKey_lowest hl hs hk⟩

/-- The register a found key is stored in holds its number. -/
theorem State.getV_storeKey_same (s : State) (x k : Nib) : (s.storeKey x k).getV x = BitVec.ofNat 8 k.toNat := by
  rw [BitVec.ofNat_toNat]
  exact s.keyTaken.getV_setV_same x (k.setWidth 8)

theorem State.storeKey_draws {s : State} (x k : Nib) (h : s.params.keySelect = .lowest) :
    (s.storeKey x k).draws = s.draws := by
  rw [State.storeKey_eq, State.keyTaken_lowest h]

theorem State.storeKey_pc_toNat (s : State) (x k : Nib) : (s.storeKey x k).pc.toNat = (s.pc.toNat + 2) % 65536 := by
  rw [State.storeKey_pc]
  exact BitVec.toNat_add s.pc 2#16

/-- A found key writes no byte. -/
theorem State.readByte_storeKey (s : State) (x k : Nib) (a : Nat) : (s.storeKey x k).readByte a = s.readByte a := by
  rw [State.storeKey_eq]
  rfl

/-- A key skip on a key 0 to 15 is a skip on its latch (R184, R185). -/
theorem skipOnKey_of_lt {x : Nib} {s : State} (wanted : Bool) (h : (s.getV x).toNat < 16) :
    skipOnKey x wanted s = skipOn (s.key[(s.getV x).toNat] == wanted) s := by
  rw [skipOnKey, State.namedKey_eq_ok.mpr ⟨h, rfl⟩]

end Sys2Proof.Machine
end

section
/-! The statements about FX0A, the waiting cycle and the skips on a key. -/

namespace Sys2Proof.Proofs

open Sys2Proof.Machine

/-- Settles O39, by the key the selection answers. -/
theorem waitForKey : Obligations.WaitForKey := by
  refine fun x s => ⟨fun hup => ?_, fun k hk => ?_⟩
  · rw [exec, execLdVxK, State.selectKey_eq_none.mpr hup]
    rfl
  · obtain ⟨j, hs, hj, hlow⟩ := State.selectKey_spec hk
    have hnext : exec (.ldVxK x) s = .next ((s.storeKey x j).report (.ok false)) := by
      rw [exec, execLdVxK, hs]
      rfl
    refine ⟨_, j, hnext, hj, hlow, ⟨s.storeKey_pc_toNat x j, rfl⟩, s.getV_storeKey_same x j,
      fun r => s.getV_storeKey_other j, ?_, State.storeKey_draws x j, s.readByte_storeKey x j⟩
    rw [State.storeKey_eq]
    rfl

/-- Settles O10: as for FX0A, with KW.reg as the register, and the wait ended when a key is found. -/
theorem waitingCycle : Obligations.WaitingCycle := by
  refine fun s hw => ⟨fun hup => ?_, fun k hk => ?_⟩
  · rw [step_waiting hw, waitCycle, State.selectKey_eq_none.mpr hup]
    rfl
  · obtain ⟨j, hs, hj, hlow⟩ := State.selectKey_spec hk
    have hnext : step s = .next (State.report { s.storeKey s.kwReg j with kwActive := false } (.ok false)) := by
      rw [step_waiting hw, waitCycle, hs]
      rfl
    refine ⟨_, j, hnext, hj, hlow, ⟨s.storeKey_pc_toNat s.kwReg j, rfl⟩, s.getV_storeKey_same s.kwReg j,
      fun r => s.getV_storeKey_other j, ?_, State.storeKey_draws s.kwReg j, s.readByte_storeKey s.kwReg j⟩
    rw [State.storeKey_eq]
    rfl

/-- Settles O22: a key 0 to 15 makes a skip on its latch, a greater number is the instruction's own condition. -/
theorem skipOnKey : Obligations.SkipOnKey := by
  refine fun x s => ⟨fun h => ⟨?_, ?_⟩, fun h => ⟨?_, ?_⟩⟩
  · have hskip : exec (.skp x) s = _ := skipOnKey_of_lt true h
    simpa [hskip] using skipOn_completes s (s.key[(s.getV x).toNat] == true)
  · have hskip : exec (.sknp x) s = _ := skipOnKey_of_lt false h
    simpa [hskip, ← Bool.not_eq_true] using skipOn_completes s (s.key[(s.getV x).toNat] == false)
  · exact exec_eq_fault_iff.mpr (if_pos h)
  · exact exec_eq_fault_iff.mpr (if_pos h)

end Sys2Proof.Proofs
end

section
/-! SUPPORT. What FX33, FX55 and FX65 leave in memory and in the registers, and their condition
(spec/45_index_memory.md). -/

namespace Sys2Proof.Machine

/-- A byte outside the ones written is kept. -/
theorem State.readByte_writeBytes_outside (s : State) {a c : Nat} {bs : List Byte} (h : c < a ∨ a + bs.length ≤ c) :
    (s.writeBytes a bs).readByte c = s.readByte c := by
  rw [State.readByte_writeBytes]
  split
  · exact List.getD_eq_default _ _ (by omega)
  · rfl

/-- The k-th byte written. -/
theorem State.readByte_writeBytes_inside (s : State) (a : Nat) {bs : List Byte} {k : Nat} (h : k < bs.length) :
    (s.writeBytes a bs).readByte (a + k) = bs[k] := by
  rw [State.readByte_writeBytes, if_pos (Nat.le_add_right a k), Nat.add_sub_cancel_left, List.getD_eq_getElem _ _ h]

/-- The state an instruction that stores bytes from I on leaves differs in memory, PC and the report. -/
theorem State.onlyMem_writeBytes (s : State) (a : Nat) (bs : List Byte) (r : Result) :
    s.onlyMem ((s.writeBytes a bs).nextPc.report r) := by
  rw [State.onlyMem, State.writeBytes_eq]
  rfl

/-- Such a state is at the next word and reports `Ok(0)`. -/
theorem State.okAt_writeBytes (s : State) (a : Nat) (bs : List Byte) :
    ((s.writeBytes a bs).nextPc.report (.ok false)).okAt (s.pc.toNat + 2) := by
  refine ⟨?_, rfl⟩
  rw [State.report_pc, State.nextPc_pc, State.writeBytes_pc]
  exact BitVec.toNat_add s.pc 2#16

theorem execLdB_in {x : Nib} {s : State} (h : s.i.toNat + 2 ≤ 0xFFF) :
    execLdB x s = .next ((s.writeBytes s.i.toNat (decimalDigits (s.getV x))).nextPc.report (.ok false)) :=
  checkRange_in (.inr (by omega))

theorem execLdStore_in {x : Nib} {s : State} (h : s.i.toNat + x.toNat ≤ 0xFFF) :
    execLdStore x s = .next ((s.writeBytes s.i.toNat (s.firstRegs x)).nextPc.report (.ok false)) :=
  checkRange_in (.inr (by omega))

theorem execLdLoad_in {x : Nib} {s : State} (h : s.i.toNat + x.toNat ≤ 0xFFF) :
    execLdLoad x s = .next ((s.loadRegs x s.i.toNat).nextPc.report (.ok false)) :=
  checkRange_in (.inr (by omega))

/-- The state FX65 leaves differs in the registers, PC and the report. -/
theorem State.onlyRegs_loadRegs (s : State) (x : Nib) (a : Nat) (r : Result) :
    s.onlyRegs ((s.loadRegs x a).nextPc.report r) := by
  refine ⟨?_, fun c => by simp⟩
  unfold State.report State.nextPc State.loadRegs
  rfl

/-- The bytes of a store hold the registers stored. -/
theorem State.readByte_writeBytes_firstRegs (s : State) (a : Nat) {x r : Nib} (h : r.toNat ≤ x.toNat) :
    (s.writeBytes a (s.firstRegs x)).readByte (a + r.toNat) = s.getV r := by
  rw [State.readByte_writeBytes, if_pos (Nat.le_add_right a _), Nat.add_sub_cancel_left]
  exact s.firstRegs_getD x r _ h

/-- The three digits of a byte read back as its value, tens and units below 10 (R233). -/
theorem decimalDigits_spec (v : Byte) :
    ∃ d2 d1 d0, decimalDigits v = [d2, d1, d0] ∧ d2.toNat * 100 + d1.toNat * 10 + d0.toNat = v.toNat ∧
      d1.toNat ≤ 9 ∧ d0.toNat ≤ 9 := by
  have hv := v.isLt
  refine ⟨_, _, _, rfl, ?_⟩
  simp only [BitVec.toNat_ofNat]
  omega

end Sys2Proof.Machine
end

section
/-! The statements about FX33, FX55 and FX65. -/

namespace Sys2Proof.Proofs

open Sys2Proof.Machine

/-- Settles O33: the three digits written one after another from I on. -/
theorem decimalDigits : Obligations.DecimalDigits := by
  refine fun x s => ⟨fun hin => ?_, fun hout => checkRange_out (by decide) (by omega)⟩
  obtain ⟨d2, d1, d0, hd, hsum, h1, h0⟩ := decimalDigits_spec (s.getV x)
  refine ⟨_, execLdB_in hin, s.okAt_writeBytes _ _, ?_⟩
  have hread (k : Nat) (hk : k < 3) := s.readByte_writeBytes_inside s.i.toNat (bs := [d2, d1, d0]) (k := k) hk
  have e2 := hread 0 (by decide)
  have e1 := hread 1 (by decide)
  have e0 := hread 2 (by decide)
  rw [hd]
  simp only [State.readByte_report, State.readByte_nextPc, Nat.add_zero] at e2 e1 e0 ⊢
  rw [e2, e1, e0]
  exact ⟨hsum, h1, h0, fun a ha => s.readByte_writeBytes_outside ha, s.onlyMem_writeBytes _ _ _⟩

/-- Settles O34: V[0] to V[x] written one after another from I on. -/
theorem storeRegisters : Obligations.StoreRegisters := by
  refine fun x s => ⟨fun hin => ?_, fun hout => checkRange_out (Nat.succ_ne_zero _) (by omega)⟩
  refine ⟨_, execLdStore_in hin, s.okAt_writeBytes _ _, fun r hr => s.readByte_writeBytes_firstRegs _ hr,
    fun a ha => s.readByte_writeBytes_outside ?_, s.onlyMem_writeBytes _ _ _⟩
  rw [s.firstRegs_length]
  omega

/-- Settles O35, from the registers after the load. -/
theorem loadRegisters : Obligations.LoadRegisters := by
  refine fun x s => ⟨fun hin => ?_, fun hout => checkRange_out (Nat.succ_ne_zero _) (by omega)⟩
  have hnext : exec (.ldLoad x) s = _ := execLdLoad_in hin
  refine ⟨_, hnext, ⟨exec_pc_toNat hnext, State.report_result _ _⟩, fun r hr => ?_, fun r hr => ?_,
    s.onlyRegs_loadRegs x _ _⟩
  · rw [State.getV_report, State.getV_nextPc, State.getV_loadRegs, if_pos hr]
  · rw [State.getV_report, State.getV_nextPc, State.getV_loadRegs, if_neg (Nat.not_le.mpr hr)]

/-- Settles O36: the load reads from the I the store wrote from, and finds the bytes the store left. -/
theorem storeThenLoad : Obligations.StoreThenLoad := by
  intro x s t between h
  obtain ⟨hr, rfl⟩ := execLdStore_eq_next h
  have hi : (s.writeBytes s.i.toNat (s.firstRegs x)).i = s.i := by rw [State.writeBytes_eq]
  refine ⟨_, execLdLoad_in ?_, fun r hrx => ?_⟩
  · simp only [State.report_i, State.nextPc_i, hi]
    omega
  · rw [State.getV_report, State.getV_nextPc, State.getV_loadRegs, if_pos hrx]
    simp only [State.report_i, State.nextPc_i, hi]
    exact s.readByte_writeBytes_firstRegs s.i.toNat hrx

/-- Settles O37: the two bytes of the next word are the first two bytes of the store. -/
theorem storeSeenByFetch : Obligations.StoreSeenByFetch := by
  intro x s t h hi hx
  have hpc : t.pc.toNat = s.i.toNat := by
    have hlt := s.i.isLt
    rw [exec_pc_toNat h, pcAfter, ← hi]
    omega
  obtain ⟨hr, rfl⟩ := execLdStore_eq_next h
  rw [State.fetchedWord, hpc]
  congr 1
  · exact s.readByte_writeBytes_firstRegs s.i.toNat (r := 0x0#4) (Nat.zero_le _)
  · exact s.readByte_writeBytes_firstRegs s.i.toNat (r := 0x1#4) hx

end Sys2Proof.Proofs
end

section
/-! SUPPORT. What a step and a load write: bytes of memory, and the special registers (spec/10_state.md,
spec/20_memory.md, spec/70_reset_and_hazards.md). -/

namespace Sys2Proof.Machine

/-- A byte an instruction changes is one of those it stores from I on (R61). -/
theorem exec_readByte_changed {i : Instr} {s t : State} {a : Nat} (h : exec i s = .next t)
    (ha : t.readByte a ≠ s.readByte a) : s.i.toNat ≤ a ∧ a < s.i.toNat + storedBytes i := by
  obtain ⟨bs, hlen, -, hmem⟩ := exec_mem h
  obtain ⟨-, -, -, -, hp⟩ := exec_keeps h
  rw [State.readByte_congr hmem (by simp [hp])] at ha
  by_contra hout
  exact ha (s.readByte_writeBytes_outside (by omega))

/-- Which instructions write I, SP, the stack and the timers (R27 to R31). -/
theorem exec_special_writers {i : Instr} {s t : State} (h : exec i s = .next t) :
    (t.i = s.i ∨ ∃ x nnn, i ∈ [.ldI nnn, .addI x, .ldF x]) ∧ (t.sp = s.sp ∨ ∃ nnn, i ∈ [.call nnn, .ret]) ∧
      (t.stack = s.stack ∨ ∃ nnn, i = .call nnn) ∧ (t.dt = s.dt ∨ ∃ x, i = .ldDt x) ∧
      (t.st = s.st ∨ ∃ x, i = .ldSt x) := by
  cases i with
  | ldI nnn =>
    obtain rfl := finish_eq_next.mp h
    exact ⟨.inr ⟨0x0#4, nnn, by simp⟩, .inl rfl, .inl rfl, .inl rfl, .inl rfl⟩
  | addI x | ldF x =>
    obtain rfl := finish_eq_next.mp h
    exact ⟨.inr ⟨x, 0x000#12, by simp⟩, .inl rfl, .inl rfl, .inl rfl, .inl rfl⟩
  | call nnn =>
    obtain ⟨-, rfl⟩ := execCall_eq_next h
    exact ⟨.inl rfl, .inr ⟨nnn, by simp⟩, .inr ⟨nnn, rfl⟩, .inl rfl, .inl rfl⟩
  | ret =>
    obtain ⟨-, rfl⟩ := execRet_eq_next h
    exact ⟨.inl rfl, .inr ⟨0x000#12, by simp⟩, .inl rfl, .inl rfl, .inl rfl⟩
  | ldDt x =>
    obtain rfl := finish_eq_next.mp h
    exact ⟨.inl rfl, .inl rfl, .inl rfl, .inr ⟨x, rfl⟩, .inl rfl⟩
  | ldSt x =>
    obtain rfl := finish_eq_next.mp h
    exact ⟨.inl rfl, .inl rfl, .inl rfl, .inl rfl, .inr ⟨x, rfl⟩⟩
  | ldVxK x =>
    rcases execLdVxK_eq_next h with ⟨-, rfl⟩ | ⟨k, -, rfl⟩
    · exact ⟨.inl rfl, .inl rfl, .inl rfl, .inl rfl, .inl rfl⟩
    · simp [State.storeKey_eq]
  | skp x => obtain ⟨-, rfl⟩ := skipOnKey_eq_next h; simp
  | sknp x => obtain ⟨-, rfl⟩ := skipOnKey_eq_next h; simp
  | drw x y n => obtain ⟨-, rfl⟩ := execDrw_eq_next h; simp
  | ldLoad x => obtain ⟨-, rfl⟩ := execLdLoad_eq_next h; simp
  | ldB x => obtain ⟨-, rfl⟩ := execLdB_eq_next h; rw [State.writeBytes_eq]; simp
  | ldStore x => obtain ⟨-, rfl⟩ := execLdStore_eq_next h; rw [State.writeBytes_eq]; simp
  | sub x y | shr x y | shl x y =>
    obtain rfl := finish_eq_next.mp h
    rw [State.writeFlagged_eq]
    simp
  | _ =>
    obtain rfl := finish_eq_next.mp h
    exact ⟨.inl rfl, .inl rfl, .inl rfl, .inl rfl, .inl rfl⟩

/-- The waiting cycle writes one register, PC, KW.active, the draw counter and the report (R262). -/
theorem waitCycle_keeps {s t : State} (h : waitCycle s = .next t) :
    t = { s with v := t.v, pc := t.pc, kwActive := t.kwActive, draws := t.draws, result := t.result } := by
  rcases waitCycle_eq_next h with ⟨-, rfl⟩ | ⟨k, -, rfl⟩
  · rfl
  · rw [State.storeKey_eq]
    rfl

/-- A step whose cycle is no executed instruction keeps memory, the special registers and the display. -/
theorem step_keeps_or_executes {s t : State} (h : step s = .next t) :
    (s.sameBytes t ∧ t.i = s.i ∧ t.sp = s.sp ∧ t.stack = s.stack ∧ t.dt = s.dt ∧ t.st = s.st ∧ t.fb = s.fb) ∨
    (s.kwActive = false ∧ ∃ i, decode s.fetchedWord = some i ∧ exec i (s.latch s.fetchedWord) = .next t) := by
  rcases step_eq_next h with ⟨-, hw⟩ | ⟨hk, -, i, hd, he⟩ | ⟨-, -, -, rfl⟩
  · rw [waitCycle_keeps hw]
    exact .inl ⟨fun _ => rfl, rfl, rfl, rfl, rfl, rfl, rfl⟩
  · exact .inr ⟨hk, i, hd, he⟩
  · exact .inl ⟨fun _ => rfl, rfl, rfl, rfl, rfl, rfl, rfl⟩

theorem romFits_iff {n : Nat} : romFits n = true ↔ 0x200 + n ≤ 0x1000 :=
  decide_eq_true_iff

end Sys2Proof.Machine
end

section
/-! The statements about who writes memory and the special registers, and about load. -/

namespace Sys2Proof.Proofs

open Sys2Proof.Machine

/-- Settles O41: only an executed instruction changes a byte, and only one that it stores. -/
theorem memoryWriters : Obligations.MemoryWriters := by
  intro s t h a ha
  rcases step_keeps_or_executes h with ⟨hb, -⟩ | ⟨hk, i, hd, he⟩
  · exact absurd (hb a) ha
  · exact ⟨hk, i, hd, exec_readByte_changed (s := s.latch s.fetchedWord) he ha⟩

/-- Settles O42: only an executed instruction writes a special register, and only the ones named for it. -/
theorem specialRegisterWriters : Obligations.SpecialRegisterWriters := by
  intro s t h
  rcases step_keeps_or_executes h with ⟨-, hi, hsp, hstack, hdt, hst, -⟩ | ⟨hk, i, hd, he⟩
  · exact ⟨absurd hi, absurd hsp, absurd hstack, absurd hdt, absurd hst⟩
  · obtain ⟨hi, hsp, hstack, hdt, hst⟩ := exec_special_writers he
    simp only [hk, hd, true_and]
    refine ⟨fun hne => ?_, fun hne => ?_, fun hne => ?_, fun hne => ?_, fun hne => ?_⟩
    · simpa using hi.resolve_left hne
    · simpa using hsp.resolve_left hne
    · simpa using hstack.resolve_left hne
    · simpa using hdt.resolve_left hne
    · simpa using hst.resolve_left hne

/-- Settles O58: the bytes written at 0x200 on when the ROM fits, and the other branch of load when it does not. -/
theorem loadRom : Obligations.LoadRom := by
  refine fun rom s => ⟨fun hfit => ?_, fun hbig => ?_⟩
  · exact ⟨_, if_pos (romFits_iff.mpr hfit), fun j hj => s.readByte_writeBytes_inside 0x200 hj,
      fun a ha => s.readByte_writeBytes_outside ha, s.writeBytes_eq _ rom⟩
  · exact if_neg (by rw [romFits_iff]; omega)

end Sys2Proof.Proofs
end

section
/-! SUPPORT. Noninterference: what an instruction does when the display, the supplied draw and the draw counter are
others. -/

namespace Sys2Proof.Machine

/-- The next state of an outcome changed by `f`, a stop left as it is. -/
def mapNext (f : State → State) : Out → Out
  | .next t => .next (f t)
  | .fault g => .fault g
  | .refused q => .refused q

theorem mapNext_checkRange (f : State → State) (base n : Nat) (body : Out) :
    mapNext f (checkRange base n body) = checkRange base n (mapNext f body) := by
  unfold checkRange
  split <;> rfl

/-- The state with the display, the supplied draw and the draw counter changed: what no instruction but CLS, DRW, RND
and FX0A looks at (R144, R211, R265). -/
def State.changeUnread (φ : BitVec 2048 → BitVec 2048) (ρ : Option Byte → Option Byte) (δ : Nat → Nat) (s : State) :
    State :=
  { s with fb := φ s.fb, rndIn := ρ s.rndIn, draws := δ s.draws }

section
variable {φ : BitVec 2048 → BitVec 2048} {ρ : Option Byte → Option Byte} {δ : Nat → Nat}

theorem State.writeFlagged_changeUnread (s : State) (x : Nib) (result flag : Byte) :
    (s.changeUnread φ ρ δ).writeFlagged x result flag = (s.writeFlagged x result flag).changeUnread φ ρ δ := by
  have hp : (s.changeUnread φ ρ δ).params = s.params := rfl
  unfold State.writeFlagged
  rw [hp]
  split <;> rfl

theorem State.writeBytes_changeUnread (s : State) (a : Nat) (bs : List Byte) :
    (s.changeUnread φ ρ δ).writeBytes a bs = (s.writeBytes a bs).changeUnread φ ρ δ := by
  induction bs generalizing s a with
  | nil => rfl
  | cons b rest ih => exact ih (s.writeByte a b) (a + 1)

theorem State.v_changeUnread (s : State) : (s.changeUnread φ ρ δ).v = s.v :=
  rfl

theorem State.i_changeUnread (s : State) : (s.changeUnread φ ρ δ).i = s.i :=
  rfl

theorem State.readByte_changeUnread (s : State) (a : Nat) : (s.changeUnread φ ρ δ).readByte a = s.readByte a :=
  rfl

theorem State.loadRegs_changeUnread (s : State) (x : Nib) (a : Nat) :
    (s.changeUnread φ ρ δ).loadRegs x a = (s.loadRegs x a).changeUnread φ ρ δ := by
  simp only [State.loadRegs, State.readByte_changeUnread, State.v_changeUnread]
  rfl

theorem finish_nextPc_changeUnread (s : State) (r : Result) :
    finish (s.changeUnread φ ρ δ).nextPc r = mapNext (State.changeUnread φ ρ δ) (finish s.nextPc r) :=
  rfl

theorem skipOnKey_changeUnread (x : Nib) (wanted : Bool) (s : State) :
    skipOnKey x wanted (s.changeUnread φ ρ δ) = mapNext (State.changeUnread φ ρ δ) (skipOnKey x wanted s) := by
  have hn : (s.changeUnread φ ρ δ).namedKey ((s.changeUnread φ ρ δ).getV x) = s.namedKey (s.getV x) := rfl
  rw [skipOnKey, skipOnKey, hn]
  cases s.namedKey (s.getV x) <;> rfl

theorem execCall_changeUnread (nnn : Imm12) (s : State) :
    execCall nnn (s.changeUnread φ ρ δ) = mapNext (State.changeUnread φ ρ δ) (execCall nnn s) := by
  by_cases hs : s.sp.val < 16
  · rw [execCall_of_room nnn hs, execCall_of_room nnn (s := s.changeUnread φ ρ δ) hs]
    rfl
  · have hfull : s.sp.val = 16 := by omega
    have hf (u : State) (hu : u.sp.val = 16) : exec (.call nnn) u = .fault .stackOverflow :=
      exec_eq_fault_iff.mpr (if_pos hu)
    exact (hf (s.changeUnread φ ρ δ) hfull).trans (congrArg (mapNext _) (hf s hfull)).symm

theorem execRet_changeUnread (s : State) :
    execRet (s.changeUnread φ ρ δ) = mapNext (State.changeUnread φ ρ δ) (execRet s) := by
  by_cases hs : 0 < s.sp.val
  · rw [execRet_of_held hs, execRet_of_held (s := s.changeUnread φ ρ δ) hs]
    rfl
  · have hempty : s.sp.val = 0 := by omega
    have hf (u : State) (hu : u.sp.val = 0) : exec .ret u = .fault .stackUnderflow :=
      exec_eq_fault_iff.mpr (if_pos hu)
    exact (hf (s.changeUnread φ ρ δ) hempty).trans (congrArg (mapNext _) (hf s hempty)).symm

/-- The choice among the keys looks at the draw counter under KEY_WAIT_SELECT = any alone (R265). -/
theorem State.selectKey_changeUnread {s : State} (h : s.params.keySelect = .lowest ∨ δ = id) :
    (s.changeUnread φ ρ δ).selectKey = s.selectKey := by
  have hp : (s.changeUnread φ ρ δ).params = s.params := rfl
  unfold State.selectKey
  rw [hp]
  rcases h with h | rfl
  · rw [h]
    rfl
  · rfl

theorem State.storeKey_changeUnread {s : State} (x k : Nib) (h : s.params.keySelect = .lowest ∨ δ = id) :
    (s.changeUnread φ ρ δ).storeKey x k = (s.storeKey x k).changeUnread φ ρ δ := by
  have hp : (s.changeUnread φ ρ δ).params = s.params := rfl
  unfold State.storeKey State.keyTaken
  rw [hp]
  rcases h with h | rfl
  · rw [h]
    rfl
  · split <;> rfl

theorem execLdVxK_changeUnread {s : State} (x : Nib) (h : s.params.keySelect = .lowest ∨ δ = id) :
    execLdVxK x (s.changeUnread φ ρ δ) = mapNext (State.changeUnread φ ρ δ) (execLdVxK x s) := by
  rw [execLdVxK, execLdVxK, State.selectKey_changeUnread h]
  cases s.selectKey with
  | none => rfl
  | some k =>
    simp only [State.storeKey_changeUnread x k h]
    rfl

theorem waitCycle_changeUnread {s : State} (h : s.params.keySelect = .lowest ∨ δ = id) :
    waitCycle (s.changeUnread φ ρ δ) = mapNext (State.changeUnread φ ρ δ) (waitCycle s) := by
  rw [waitCycle, waitCycle, State.selectKey_changeUnread h]
  cases s.selectKey with
  | none => rfl
  | some k =>
    have hreg : (s.changeUnread φ ρ δ).kwReg = s.kwReg := rfl
    simp only [hreg, State.storeKey_changeUnread s.kwReg k h]
    rfl

/-- Every instruction but CLS, DRW and RND does the same whatever the display and the draw are; FX0A does where its
choice looks at no draw. -/
theorem exec_changeUnread {i : Instr} {s : State} (hd : writesDisplay i = false) (hr : ∀ x nn, i ≠ .rnd x nn)
    (hk : s.params.keySelect = .lowest ∨ δ = id) :
    exec i (s.changeUnread φ ρ δ) = mapNext (State.changeUnread φ ρ δ) (exec i s) := by
  cases i with
  | cls | drw x y n => cases hd
  | rnd x nn => exact absurd rfl (hr x nn)
  | ldVxK x => exact execLdVxK_changeUnread x hk
  | skp x => exact skipOnKey_changeUnread x true s
  | sknp x => exact skipOnKey_changeUnread x false s
  | call nnn => exact execCall_changeUnread nnn s
  | ret => exact execRet_changeUnread s
  | sub x y | shr x y | shl x y =>
    exact congrArg (fun u : State => finish u.nextPc (.ok false)) (s.writeFlagged_changeUnread x _ _)
  | ldB x | ldStore x =>
    refine Eq.trans ?_ (mapNext_checkRange _ _ _ _).symm
    exact congrArg (fun u : State => checkRange s.i.toNat _ (finish u.nextPc (.ok false)))
      (s.writeBytes_changeUnread s.i.toNat _)
  | ldLoad x =>
    rw [exec, exec, execLdLoad, execLdLoad, mapNext_checkRange, State.loadRegs_changeUnread,
      finish_nextPc_changeUnread, State.i_changeUnread]
  | _ => rfl

/-- CLS and DRW look at no draw either. -/
theorem exec_changeUnread_display {i : Instr} {s : State} (hd : writesDisplay i = true) :
    exec i (s.changeUnread id ρ δ) = mapNext (State.changeUnread id ρ δ) (exec i s) := by
  cases i with
  | cls => rfl
  | drw x y n =>
    rw [exec, exec, execDrw, execDrw, mapNext_checkRange]
    rfl
  | _ => cases hd

/-- The cycle fetches the same, and latches it, whatever the display and the draw are. -/
theorem State.fetchedWord_changeUnread (s : State) : (s.changeUnread φ ρ δ).fetchedWord = s.fetchedWord :=
  rfl

theorem State.latch_changeUnread (s : State) (w : Word) :
    (s.changeUnread φ ρ δ).latch w = (s.latch w).changeUnread φ ρ δ :=
  rfl

/-- A step whose instruction is not RND does the same whatever the draw is, under KEY_WAIT_SELECT = lowest (R211). -/
theorem step_changeUnread_draw {s : State} (hk : s.params.keySelect = .lowest)
    (hr : ∀ x nn, decode s.fetchedWord ≠ some (.rnd x nn)) :
    step (s.changeUnread id ρ δ) = mapNext (State.changeUnread id ρ δ) (step s) := by
  cases hw : s.kwActive with
  | true =>
    rw [step_waiting hw, step_waiting (s := s.changeUnread id ρ δ) hw]
    exact waitCycle_changeUnread (.inl hk)
  | false =>
    cases hf : s.fetchFault with
    | some f =>
      rw [step_stopped hw hf, step_stopped (s := s.changeUnread id ρ δ) hw hf]
      rfl
    | none =>
      have hword := s.fetchedWord_changeUnread (φ := id) (ρ := ρ) (δ := δ)
      cases hd : decode s.fetchedWord with
      | none =>
        rw [step_unknown hw hf hd, step_unknown (s := s.changeUnread id ρ δ) hw hf (by rw [hword, hd])]
        rfl
      | some i =>
        rw [step_decoded hw hf hd, step_decoded (s := s.changeUnread id ρ δ) hw hf (by rw [hword, hd]), hword,
          State.latch_changeUnread]
        cases hi : writesDisplay i with
        | true => exact exec_changeUnread_display hi
        | false => exact exec_changeUnread hi (fun x nn h => hr x nn (hd.trans (congrArg some h))) (.inl hk)

end

/-- An instruction that does not write the display does the same on every display (R144). -/
theorem exec_changeDisplay {i : Instr} (s : State) (fb : BitVec 2048) (hd : writesDisplay i = false) :
    exec i { s with fb := fb } = mapNext (fun t => { t with fb := fb }) (exec i s) := by
  by_cases hr : ∃ x nn, i = .rnd x nn
  · obtain ⟨x, nn, rfl⟩ := hr
    rfl
  · exact exec_changeUnread (φ := fun _ => fb) (ρ := id) hd (fun x nn h => hr ⟨x, nn, h⟩) (.inr rfl)

/-- An instruction that does not write the display keeps it. -/
theorem exec_fb {i : Instr} {s t : State} (h : exec i s = .next t) (hd : writesDisplay i = false) : t.fb = s.fb := by
  have hsame : exec i s = mapNext (fun t => { t with fb := s.fb }) (exec i s) := exec_changeDisplay s s.fb hd
  rw [h, mapNext] at hsame
  injection hsame with hsame
  rw [hsame]

/-! Who writes the display -/

theorem step_fb {s t : State} (h : step s = .next t) :
    t.fb = s.fb ∨ (s.kwActive = false ∧ ∃ i, decode s.fetchedWord = some i ∧ writesDisplay i = true) := by
  rcases step_keeps_or_executes h with ⟨-, -, -, -, -, -, hfb⟩ | ⟨hk, i, hd, he⟩
  · exact .inl hfb
  · cases hi : writesDisplay i with
    | true => exact .inr ⟨hk, i, hd, hi⟩
    | false => exact .inl (exec_fb (s := s.latch s.fetchedWord) he hi)

theorem hostStep_fb (rnd : Byte) (s : State) :
    (hostStep rnd s).2.fb = s.fb ∨
      (s.kwActive = false ∧ ∃ i, decode s.fetchedWord = some i ∧ writesDisplay i = true) := by
  rcases hostStep_cases rnd s with ⟨t, r, h, -, heq⟩ | ⟨f, -, heq⟩
  · rw [heq]
    exact (step_fb h :)
  · rw [heq]
    exact .inl rfl

/-- A host operation changes the display only as reset or as a step that runs CLS or DRW (R144). -/
theorem hostOp_fb_changed {op : HostOp} {s : State} (h : (hostOp op s).2.fb ≠ s.fb) :
    op = .reset ∨ (s.kwActive = false ∧ (∃ rnd, op = .step rnd) ∧
      ∃ i, decode s.fetchedWord = some i ∧ writesDisplay i = true) := by
  cases op with
  | reset => exact .inl rfl
  | step rnd =>
    obtain ⟨hk, hi⟩ := (hostStep_fb rnd s).resolve_left h
    exact .inr ⟨hk, ⟨rnd, rfl⟩, hi⟩
  | load rom =>
    refine absurd ?_ h
    rw [hostOp]
    split
    · rw [State.writeBytes_eq]
    · rfl
  | tick | getDisplay | consumeRedraw | soundTimer | setKey | dump => exact absurd rfl h

end Sys2Proof.Machine
end

section
/-! The statements that the display and the draw are read by no other instruction. -/

namespace Sys2Proof.Proofs

open Sys2Proof.Machine

/-- Settles O44, from an instruction on another display and from what each host operation does to the display. -/
theorem displayIsolation : Obligations.DisplayIsolation := by
  refine ⟨fun i s fb hd => ?_, fun s fb => rfl, fun op s h => hostOp_fb_changed h⟩
  rw [exec_changeDisplay s fb hd]
  cases exec i s <;> rfl

/-- Settles O50, from a step with another draw. -/
theorem drawReadOnlyByRnd : Obligations.DrawReadOnlyByRnd := by
  intro s rndIn draws hk hr
  have hstep := step_changeUnread_draw (ρ := fun _ => rndIn) (δ := fun _ => draws) hk hr
  refine Eq.trans hstep ?_
  cases step s <;> rfl

end Sys2Proof.Proofs
end

section
/-! SUPPORT. A second drawing of the same sprite (spec/41_display.md). -/

namespace Sys2Proof.Machine

theorem execDrw_in {x y n : Nib} {s : State} (h : n.toNat = 0 ∨ s.i.toNat + n.toNat ≤ 0x1000) :
    execDrw x y n s = .next ((s.showCanvas (s.drawSprite x y n)).nextPc.report (.ok true)) :=
  checkRange_in h

/-- VF after a drawing is the collision flag. -/
theorem State.getV_vf_drawn (s : State) (c : Canvas) (r : Result) :
    ((s.showCanvas c).nextPc.report r).getV vf = 0x01#8 ↔ c.hit = true := by
  rw [State.getV_report, State.getV_nextPc, State.getV_showCanvas, if_pos rfl]
  cases c.hit <;> decide

/-- A drawing leaves the sprite where it was when its coordinates are not held in VF. -/
theorem State.spriteBit_drawn (s : State) {x y : Nib} (n : Nib) (c : Canvas) (r : Result) (hx : x ≠ vf) (hy : y ≠ vf)
    (p : Nat) : ((s.showCanvas c).nextPc.report r).spriteBit x y n p = s.spriteBit x y n p := by
  simp [State.spriteBit, State.getV_showCanvas, hx, hy]

/-- A sprite has a 1 on some pixel exactly when one of its bytes has a set bit. -/
theorem State.exists_spriteBit (s : State) (x y n : Nib) :
    (∃ p, p < 2048 ∧ s.spriteBit x y n p = true) ↔
      ∃ row col, row < n.toNat ∧ col < 8 ∧ (s.readByte (s.i.toNat + row)).getLsbD col = true := by
  simp only [State.spriteBit_eq_true]
  constructor
  · rintro ⟨p, -, row, col, hr, hc, hbit, -⟩
    exact ⟨row, 7 - col, hr, by omega, hbit⟩
  · rintro ⟨row, col, hr, hc, hbit⟩
    have hn := n.isLt
    have hp := pixIndex_lt ((s.getV x).toNat + (7 - col)) ((s.getV y).toNat + row)
    refine ⟨_, hp, row, 7 - col, hr, by omega, ?_, (eq_pixIndex_iff (by omega) (by omega) hp).mp rfl⟩
    rwa [Nat.sub_sub_self (by omega)]

/-- Two drawings of one sprite: every pixel is exclusive-ored twice, and the second one collides where a 1 falls on a
pixel that was 0 at first. -/
theorem State.drawSprite_twice {s t : State} {x y n : Nib} (hfb : t.fb = (s.drawSprite x y n).fb)
    (hbit : ∀ p, t.spriteBit x y n p = s.spriteBit x y n p) :
    (t.drawSprite x y n).fb = s.fb ∧
      ((t.drawSprite x y n).hit = true ↔ ∃ p, p < 2048 ∧ s.spriteBit x y n p = true ∧ s.fb.getLsbD p = false) := by
  obtain ⟨hs, -⟩ := s.drawSprite_spec x y n
  obtain ⟨ht, hhit⟩ := t.drawSprite_spec x y n
  constructor
  · refine BitVec.eq_of_getLsbD_eq fun p hp => ?_
    rw [ht p hp, hfb, hs p hp, hbit p, Bool.xor_assoc, Bool.xor_self, Bool.xor_false]
  · rw [hhit]
    refine exists_congr fun p => and_congr_right fun hp => ?_
    rw [hbit p, hfb, hs p hp]
    refine and_congr_right fun hb => ?_
    simp [hb]

end Sys2Proof.Machine
end

section
/-! The statements about whole drawings. -/

namespace Sys2Proof.Proofs

open Sys2Proof.Machine

/-- Settles O28: inside memory the next state of the drawing, outside it the condition of the range check. -/
theorem drawCompletes : Obligations.DrawCompletes := by
  refine fun x y n s => ⟨fun hin => ?_, fun hn hout => checkRange_out hn hout⟩
  refine ⟨_, execDrw_in hin, BitVec.toNat_add s.pc 2#16, rfl, rfl, fun r hr => ?_, rfl, fun _ => rfl⟩
  rw [State.getV_report, State.getV_nextPc, State.getV_showCanvas, if_neg hr]

/-- Settles O30: the second drawing finds the sprite unchanged and the first one's display. -/
theorem drawTwiceRestores : Obligations.DrawTwiceRestores := by
  intro x y n s t hx hy h
  obtain ⟨hin, ht⟩ := execDrw_eq_next h
  obtain ⟨hfb, hhit⟩ := State.drawSprite_twice (t := t) (by rw [ht]; rfl) fun p => by
    rw [ht]
    exact s.spriteBit_drawn n _ _ hx hy p
  have hnext : exec (.drw x y n) t = _ := execDrw_in (by rw [ht]; exact hin)
  have hvf := (t.getV_vf_drawn (t.drawSprite x y n) (.ok true)).trans hhit
  refine ⟨_, hnext, hfb, hvf, fun hblank => hvf.trans ?_⟩
  rw [← s.exists_spriteBit x y n, hblank]
  simp

end Sys2Proof.Proofs
end

section
/-! The statements about the logic operations, 8XY5, the shifts and CXNN. -/

namespace Sys2Proof.Machine

/-- 8XY5, 8XY6 and 8XYE complete with their result in V[x] and their flag in VF, and for x = 15 with the one that
VF_WRITE_ORDER keeps (R16). -/
theorem writeFlagged_completes (s : State) (x : Nib) (result flag : Byte) :
    ∃ t, finish (s.writeFlagged x result flag).nextPc (.ok false) = .next t ∧ t.okAt (s.pc.toNat + 2) ∧
      (x ≠ vf ∨ s.params.vfOrder = .listed → t.getV x = result) ∧
      (x ≠ vf ∨ s.params.vfOrder = .flagLast → t.getV vf = flag) ∧
      (∀ r, r ≠ x → r ≠ vf → t.getV r = s.getV r) ∧ s.onlyRegs t := by
  refine ⟨_, rfl, ⟨?_, rfl⟩, fun h => ?_, fun h => ?_, fun r => s.getV_writeFlagged_other result flag, ?_, ?_⟩
  · rw [State.report_pc, State.nextPc_pc, State.writeFlagged_pc]
    exact BitVec.toNat_add s.pc 2#16
  · rw [State.getV_report, State.getV_nextPc, State.getV_writeFlagged]
    cases ho : s.params.vfOrder <;> simp_all
  · rw [State.getV_report, State.getV_nextPc, State.getV_writeFlagged]
    cases ho : s.params.vfOrder <;> simp_all [eq_comm]
  · rw [State.writeFlagged_eq]
    rfl
  · rw [State.writeFlagged_eq]
    exact fun _ => rfl

theorem notBorrowFlag_toNat (a b : Byte) : (notBorrowFlag a b).toNat = if b.toNat < a.toNat then 1 else 0 := by
  simp [notBorrowFlag, flagByte_toNat]

theorem shiftRightFlag_toNat (a : Byte) : (shiftRightFlag a).toNat = a.toNat % 2 := by
  simp [shiftRightFlag]

theorem shiftLeftFlag_toNat (a : Byte) : (shiftLeftFlag a).toNat = a.toNat / 128 := by
  have ha : a.toNat / 128 < 2 := by
    have := a.isLt
    omega
  simp [shiftLeftFlag, Nat.shiftRight_eq_div_pow, Nat.mod_eq_of_lt ha]

end Sys2Proof.Machine

namespace Sys2Proof.Proofs

open Sys2Proof.Machine

/-- Settles O15: the shared plain register result, read bit by bit. -/
theorem logicOperations : Obligations.LogicOperations := by
  refine fun x y s => ⟨?_, ?_, ?_⟩
  · obtain ⟨t, hnext, hok, hx, hframe⟩ := writeReg_completes x (s.getV x ||| s.getV y) s
    exact ⟨t, hnext, hok, fun k => by rw [hx, BitVec.getLsbD_or], hframe⟩
  · obtain ⟨t, hnext, hok, hx, hframe⟩ := writeReg_completes x (s.getV x &&& s.getV y) s
    exact ⟨t, hnext, hok, fun k => by rw [hx, BitVec.getLsbD_and], hframe⟩
  · obtain ⟨t, hnext, hok, hx, hframe⟩ := writeReg_completes x (s.getV x ^^^ s.getV y) s
    exact ⟨t, hnext, hok, fun k => by rw [hx, BitVec.getLsbD_xor], hframe⟩

/-- Settles O17: result and flag as the two writes leave them, and their values as numbers. -/
theorem subtractNotBorrow : Obligations.SubtractNotBorrow := by
  intro x y s
  obtain ⟨t, hnext, hok, hx, hf, hframe⟩ := writeFlagged_completes s x (s.getV x - s.getV y)
    (notBorrowFlag (s.getV x) (s.getV y))
  refine ⟨t, hnext, hok, fun h => ?_, fun h => by rw [hf h, notBorrowFlag_toNat], hframe⟩
  have hy := (s.getV y).isLt
  rw [hx h, BitVec.toNat_sub]
  congr 1
  omega

/-- Settles O18: as for SUB, with the shifted value and the bit shifted out. -/
theorem shifts : Obligations.Shifts := by
  refine fun x y s => ⟨?_, ?_⟩
  · obtain ⟨t, hnext, hok, hx, hf, hframe⟩ := writeFlagged_completes s x (s.getV x >>> 1) (shiftRightFlag (s.getV x))
    refine ⟨t, hnext, hok, fun h => ?_, fun h => by rw [hf h, shiftRightFlag_toNat], hframe⟩
    rw [hx h, BitVec.toNat_ushiftRight, Nat.shiftRight_eq_div_pow]
  · obtain ⟨t, hnext, hok, hx, hf, hframe⟩ := writeFlagged_completes s x (s.getV x <<< 1) (shiftLeftFlag (s.getV x))
    refine ⟨t, hnext, hok, fun h => ?_, fun h => by rw [hf h, shiftLeftFlag_toNat], hframe⟩
    rw [hx h, BitVec.toNat_shiftLeft, Nat.shiftLeft_eq]

/-- Settles O19: the draw of the cycle is the supplied byte if there is one and else the counter's. -/
theorem randomMasked : Obligations.RandomMasked :=
  fun x _ s => ⟨_, s.draw, rfl, fun b hb => by rw [State.draw, hb], fun hb => by rw [State.draw, hb],
    ⟨BitVec.toNat_add s.pc 2#16, rfl⟩, s.drawTaken.getV_setV_same x _, fun _ => s.drawTaken.getV_setV_other _, rfl,
    fun _ => rfl⟩

end Sys2Proof.Proofs
end

section
/-! The statements about a call with its return, and about FX1E and FX29. -/

namespace Sys2Proof.Machine

theorem indexFlag_toNat (i : Word) (b : Byte) :
    (indexFlag i b).toNat = if 0xFFF ≤ i.toNat + b.toNat then 1 else 0 := by
  simp [indexFlag, flagByte_toNat]

end Sys2Proof.Machine

namespace Sys2Proof.Proofs

open Sys2Proof.Machine

/-- Settles O26: the return pops the entry the call pushed. -/
theorem callThenReturn : Obligations.CallThenReturn := by
  intro nnn s t h
  obtain ⟨hs, ht⟩ := execCall_eq_next h
  have hheld : 0 < t.sp.val := by
    rw [ht]
    exact Nat.succ_pos s.sp.val
  refine ⟨_, execRet_of_held hheld, ?_⟩
  subst ht
  refine ⟨⟨?_, rfl⟩, rfl, fun j hj hne => ?_⟩
  · simp
  · simp [hne.symm]

/-- Settles O32: I and VF of FX1E as numbers, and the glyph's address of FX29. -/
theorem indexArithmetic : Obligations.IndexArithmetic := by
  refine fun x s => ⟨?_, ?_⟩
  · refine ⟨_, rfl, ⟨exec_pc_toNat (i := .addI x) rfl, rfl⟩, ?_, ?_, fun r hr => ?_, rfl, fun _ => rfl⟩
    · simp [zextByte_toNat]
    · simp [indexFlag_toNat]
    · exact (s.setI _).getV_setV_other _ hr
  · exact ⟨_, rfl, ⟨exec_pc_toNat (i := .ldF x) rfl, rfl⟩, glyphAddress_toNat (s.getV x), rfl, fun _ => rfl⟩

end Sys2Proof.Proofs
end

section
/-! The statements about reset, tick and the host operations that only read. -/

namespace Sys2Proof.Machine

/-- A timer after a tick: one less, and 0 stays 0 (R302). -/
theorem tick_toNat (b : Byte) : (if 0x00#8 < b then b - 1#8 else b).toNat = b.toNat - 1 := by
  split <;> bv_omega

end Sys2Proof.Machine

namespace Sys2Proof.Proofs

open Sys2Proof.Machine

/-- Settles O51: the reset state field by field, with reset memory listing nothing. -/
theorem resetState : Obligations.ResetState := by
  refine fun s => ⟨fun r => Vector.getElem_replicate r.isLt, rfl, rfl, rfl, fun j hj => Vector.getElem_replicate hj,
    fun p => BitVec.getLsbD_zero, rfl, rfl, rfl, s.keyDown_doReset, rfl, rfl, rfl, fun a ha => dif_pos ha,
    fun a ha => dif_neg (Nat.not_lt.mpr ha), rfl, fun t hp hd => ?_⟩
  simp only [hostOp, State.doReset, hp, hd]

/-- Settles O55, from what a tick does to a timer. -/
theorem tick : Obligations.Tick :=
  fun s => ⟨_, rfl, tick_toNat s.dt, tick_toNat s.st, rfl, fun _ => rfl⟩

/-- Settles O57: each answer is read off the state, which stays. -/
theorem readOnlyOperations : Obligations.ReadOnlyOperations :=
  fun s => ⟨⟨s.fb, rfl, fun _ => rfl⟩, rfl, s.tone_eq_true, s.snapshot, rfl, rfl, rfl, rfl, rfl, rfl, rfl, rfl⟩

end Sys2Proof.Proofs
end

section
/-! SUPPORT. The mark of a fatal condition over host operations and along a run (R133, R289). -/

namespace Sys2Proof.Machine

/-- The host's step sets the mark exactly when it answers a fatal condition, and never clears it. -/
theorem hostStep_faulted (rnd : Byte) (s : State) :
    (hostStep rnd s).2.faulted = true ↔ s.faulted = true ∨ ∃ f, (hostStep rnd s).1 = .result (.fatal f) := by
  rcases hostStep_cases rnd s with ⟨t, r, h, hr, heq⟩ | ⟨f, -, heq⟩
  · obtain ⟨-, hkeep, -⟩ := step_keeps h
    simp [heq, hkeep, hr]
  · simp [heq]

/-- A host operation that is no reset sets the mark exactly as a step with a fatal condition, and never clears it. -/
theorem hostOp_faulted {op : HostOp} (s : State) (hop : op ≠ .reset) :
    (hostOp op s).2.faulted = true ↔
      s.faulted = true ∨ ∃ rnd f, op = .step rnd ∧ (hostOp op s).1 = .result (.fatal f) := by
  cases op with
  | reset => exact absurd rfl hop
  | step rnd => simpa [hostOp] using hostStep_faulted rnd s
  | load rom =>
    rw [hostOp]
    split
    · rw [State.writeBytes_eq]
      simp
    · simp
  | tick | getDisplay | consumeRedraw | soundTimer | setKey | dump => simp [hostOp, State.doTick, State.setKey]

/-- Before its first operation a run is not marked. -/
theorem runState_zero_faulted (params : Config.Params) (rom : List Byte) (ops : List HostOp) :
    (runState params rom ops 0).faulted = false := by
  have h := hostOp_faulted (op := .load rom) (State.resetWith params 0) (by simp)
  rw [← Bool.not_eq_true]
  exact fun hf => by simpa [State.resetWith] using h.mp hf

section
variable {params : Config.Params} {rom : List Byte} {ops : List HostOp}

/-- One operation of a run that is no reset: the mark is set exactly by a fatal step. -/
theorem runState_succ_faulted {k : Nat} {op : HostOp} (hop : ops[k]? = some op) (hne : op ≠ .reset) :
    (runState params rom ops (k + 1)).faulted = true ↔
      (runState params rom ops k).faulted = true ∨ fatalAt params rom ops k := by
  rw [runState_succ hop, hostOp_faulted _ hne]
  refine or_congr_right ⟨?_, ?_⟩
  · rintro ⟨rnd, f, rfl, hf⟩
    exact ⟨rnd, f, hop, hf⟩
  · rintro ⟨rnd, f, ho, hf⟩
    obtain rfl := Option.some.inj (hop.symm.trans ho)
    exact ⟨rnd, f, rfl, hf⟩

/-- A run without a fatal step so far is not marked, whether the host has reset or not. -/
theorem runState_not_faulted {n : Nat} (hn : n ≤ ops.length) (h : ∀ m < n, ¬fatalAt params rom ops m) :
    (runState params rom ops n).faulted = false := by
  induction n with
  | zero => exact runState_zero_faulted params rom ops
  | succ k ih =>
    have hop : ops[k]? = some ops[k] := List.getElem?_eq_getElem hn
    by_cases hr : ops[k] = .reset
    · rw [runState_succ hop, hr]
      rfl
    · rw [← Bool.not_eq_true, runState_succ_faulted hop hr]
      rintro (hf | hf)
      · simp [ih (by omega) fun m hm => h m (by omega)] at hf
      · exact h k (by omega) hf

/-- While the host does not reset, a mark stays, and a state is unmarked only if no step before was fatal. -/
theorem not_fatalAt_of_not_faulted (hreset : HostOp.reset ∉ ops) {n : Nat} (hn : n ≤ ops.length)
    (h : (runState params rom ops n).faulted = false) :
    ∀ m < n, ¬fatalAt params rom ops m := by
  induction n with
  | zero => exact fun m hm => absurd hm (Nat.not_lt_zero m)
  | succ k ih =>
    have hop : ops[k]? = some ops[k] := List.getElem?_eq_getElem hn
    have hr : ops[k] ≠ .reset := fun heq => hreset (heq ▸ List.getElem_mem hn)
    rw [← Bool.not_eq_true, runState_succ_faulted hop hr, not_or, Bool.not_eq_true] at h
    obtain ⟨hk, hfatal⟩ := h
    intro m hm
    rcases Nat.lt_succ_iff_lt_or_eq.mp hm with hlt | rfl
    · exact ih (by omega) hk m hlt
    · exact hfatal

end

end Sys2Proof.Machine
end

section
/-! The statement about the end of a run. -/

namespace Sys2Proof.Proofs

open Sys2Proof.Machine

/-- Settles O60: an unmarked state is one with no fatal step before, without a reset in both directions. -/
theorem runEnd : Obligations.RunEnd := by
  refine fun params rom ops => ⟨fun n h => ?_, fun k n hf h => ?_, fun hreset n => ⟨fun h => ?_, fun h => ?_⟩⟩
  · obtain ⟨hn, hidle, hbefore⟩ := h
    have hmark (m : Nat) (hm : m ≤ n) : (runState params rom ops m).faulted = false :=
      runState_not_faulted (by omega) fun j hj => (hbefore j (by omega)).2
    exact ⟨⟨hidle, hmark n (Nat.le_refl n)⟩, hmark⟩
  · obtain ⟨hfatal, -⟩ := hf
    obtain ⟨-, -, hbefore⟩ := h
    by_contra hlt
    exact (hbefore k (by omega)).2 hfatal
  · obtain ⟨hn, hidle, hbefore⟩ := h
    exact ⟨hn, ⟨hidle, runState_not_faulted hn fun m hm => (hbefore m hm).2⟩, fun m hm hend => (hbefore m hm).1 hend.1⟩
  · obtain ⟨hn, ⟨hidle, hmark⟩, hfirst⟩ := h
    have hfatal := not_fatalAt_of_not_faulted hreset hn hmark
    refine ⟨hn, hidle, fun m hm => ⟨fun hi => hfirst m hm ⟨hi, ?_⟩, hfatal m hm⟩⟩
    exact runState_not_faulted (by omega) fun j hj => hfatal j (by omega)

end Sys2Proof.Proofs
end
